-- ==== Sys2Proof/Word.lean ====
section
/-! DEFINITION. The widths of the machine's values (00_scope.md R5, R6): bytes, 16-bit words, register names. -/

namespace Sys2Proof

/-- An 8-bit unsigned value: a general register, a timer, a byte of memory (R5, R6). -/
abbrev Byte := BitVec 8

/-- A 16-bit unsigned value: `I`, `pc`, a stack entry, an instruction word (R5, R80). -/
abbrev Word := BitVec 16

/-- The name of a general register, `V0` to `VF` (10_state.md R21). -/
abbrev Reg := Fin 16

end Sys2Proof
end

