-- ==== Sys2Proof/Config.lean ====
section
/-! DEFINITION. The parameters of 00_scope.md R5 that the model names, the environment's moves and inputs (R9, R10), and
the free values: what the environment does and supplies at a step for which no turn is listed (notes/assumptions 6 and
7). -/

namespace Sys2Proof

/-- `MEM_SIZE`, bytes of RAM, addresses 0x000 to 0xFFF (R5). -/
@[simp] abbrev Config.memSize : Nat := 4096

/-- `FONT_SIZE`, bytes of the font table, which starts at `FONT_BASE` = 0x000 (R5). -/
@[simp] abbrev Config.fontSize : Nat := 80

/-- `PROGRAM_BASE`, where a program image is loaded and where execution begins (R5, R24). -/
@[simp] abbrev Config.programBase : Nat := 0x200

/-- `PROGRAM_MEMORY_SIZE`, the most bytes of an image that are taken (R5, R43). -/
@[simp] abbrev Config.programMemorySize : Nat := 3584

/-- `TICK_PERIOD`'s default, in microseconds (R5, OPEN, D13). The step reads `Env.tickPeriod`, which only reset sets to
this default. DESIGN CHOICE, notes/assumptions/8.md. -/
@[simp] abbrev Config.tickPeriodDefault : Nat := 16667

namespace Machine

/-- What the environment may do between two steps that changes the machine's state (00_scope.md R9, 10_state.md R54). -/
inductive EnvMove where
  /-- `set_key(index, pressed)` (10_state.md R46). -/
  | setKey (index : Nat) (pressed : Bool)
  /-- `dirty_clear` (10_state.md R48). -/
  | dirtyClear
  /-- `initialize`, which reads `now` after `elapsed` more units of time (10_state.md R39, R42, R52). -/
  | reinit (elapsed : Nat)
  /-- `load_program` of a byte sequence (10_state.md R43). -/
  | loadProgram (image : List Byte)
deriving DecidableEq, Repr

/-- One turn of the environment: the moves it makes before a step, and the four inputs it supplies to that step
(00_scope.md R10). `now` is given as the time that passes up to the step's reading of it, so that it cannot decrease
(10_state.md R52). -/
structure EnvTurn where
  moves       : List EnvMove
  haltRequest : Bool
  keyReport   : Option (BitVec 4)
  randByte    : Byte
  elapsed     : Nat
deriving DecidableEq, Repr

end Machine

/-- The moves that the environment makes before the `k`-th step, where it has no turn listed for it: any finite number, in
any order (10_state.md R54). No body, here and below: nothing can be proved of the value. DESIGN CHOICE,
notes/assumptions/6.md. -/
opaque Config.freeMoves : Nat → List Machine.EnvMove

/-- The input `halt_request` of the `k`-th step, where no turn is listed for it (10_state.md R49): a draw under no law
(00_scope.md R10). DESIGN CHOICE, notes/assumptions/6.md. -/
opaque Config.freeHaltRequest : Nat → Bool

/-- The input `key_report` of the `k`-th step, where no turn is listed for it (10_state.md R50): a draw under no law
(D10). DESIGN CHOICE, notes/assumptions/6.md. -/
opaque Config.freeKeyReport : Nat → Option (BitVec 4)

/-- The input `rand_byte` of the `k`-th step, where no turn is listed for it (10_state.md R51): a draw under no law (D12).
DESIGN CHOICE, notes/assumptions/6.md. -/
opaque Config.freeRandByte : Nat → Byte

/-- The time that passes before the `k`-th step reads `now`, where no turn is listed for it (10_state.md R52: `now` does
not decrease, no other law). DESIGN CHOICE, notes/assumptions/7.md. -/
opaque Config.freeElapsed : Nat → Nat

end Sys2Proof
end

