-- ==== Sys2Proof/Machine/Memory.lean ====
section
/-! DEFINITION. The 4096 bytes of memory (20_memory.md) as a canonical list of (address, byte) cells: what an unlisted
address reads as, one read, one write, a block of writes, the load of an image, and the canonical form. -/

namespace Sys2Proof.Machine

/-- The font table of R62, glyphs 0 to F of five bytes each from address 0x000. PRESUMED (the spec's general knowledge
GK2), notes/assumptions/1.md. -/
def fontTable : List Byte :=
  [0xF0, 0x90, 0x90, 0x90, 0xF0] ++ [0x20, 0x60, 0x20, 0x20, 0x70] ++ [0xF0, 0x10, 0xF0, 0x80, 0xF0] ++
  [0xF0, 0x10, 0xF0, 0x10, 0xF0] ++ [0x90, 0x90, 0xF0, 0x10, 0x10] ++ [0xF0, 0x80, 0xF0, 0x10, 0xF0] ++
  [0xF0, 0x80, 0xF0, 0x90, 0xF0] ++ [0xF0, 0x10, 0x20, 0x40, 0x40] ++ [0xF0, 0x90, 0xF0, 0x90, 0xF0] ++
  [0xF0, 0x90, 0xF0, 0x10, 0xF0] ++ [0xF0, 0x90, 0xF0, 0x90, 0x90] ++ [0xE0, 0x90, 0xE0, 0x90, 0xE0] ++
  [0xF0, 0x80, 0x80, 0x80, 0xF0] ++ [0xE0, 0x90, 0x90, 0x90, 0xE0] ++ [0xF0, 0x80, 0xF0, 0x80, 0xF0] ++
  [0xF0, 0x80, 0xF0, 0x80, 0x80]

/-- What an address that no cell lists reads as: its reset contents, the font table and then zeros (10_state.md R40,
R33). -/
def initialByte (a : Nat) : Byte := fontTable.getD a 0

namespace Memory

/-- The byte at an address. -/
def read : List Host.Cell → Nat → Byte
  | [], a => initialByte a
  | (k, b) :: m, a => if k = a then b else read m a

/-- The cells with the byte `v` at `a`; an address whose byte is its reset contents is not listed. -/
def write (m : List Host.Cell) (a : Nat) (v : Byte) : List Host.Cell :=
  m.filter (·.1 < a) ++ (if v = initialByte a then [] else [(a, v)]) ++ m.filter (a < ·.1)

/-- Bytes written one after another at ascending addresses from `a`. -/
def writeBytes (m : List Host.Cell) (a : Nat) : List Byte → List Host.Cell
  | [] => m
  | b :: bs => writeBytes (write m a b) (a + 1) bs

/-- The cells of bytes at ascending addresses from `a`, those at their reset contents left out. -/
def cellsOf (a : Nat) : List Byte → List Host.Cell
  | [] => []
  | b :: bs => if b = initialByte a then cellsOf (a + 1) bs else (a, b) :: cellsOf (a + 1) bs

/-- Memory after `load_program` (10_state.md R43): at most 3584 bytes of the image from 0x200 on, zeros from its end to
0xFFF, and everything below 0x200 as it was. -/
def loadImage (m : List Host.Cell) (image : List Byte) : List Host.Cell :=
  m.filter (·.1 < Config.programBase) ++ cellsOf Config.programBase (image.take Config.programMemorySize)

/-- The canonical form: addresses strictly rising, all of them addresses of the memory, and no cell at its reset
contents. -/
def wf (m : List Host.Cell) : Bool :=
  match m with
  | [] => true
  | (k, b) :: rest => k < Config.memSize && b != initialByte k && rest.all (k < ·.1) && wf rest

end Memory

end Sys2Proof.Machine
end

