-- ==== Sys2Proof/Machine/State.lean ====
section
/-! DEFINITION. The machine state of 10_state.md (R20 to R36), its values after `initialize` (R40), and the environment's
side of the ports (00_scope.md R9, R10) as plain data. -/

namespace Sys2Proof.Machine

/-- `run_state` (10_state.md R34). -/
inductive RunState where
  | running
  | halted
deriving DecidableEq, Repr

/-- `status` (10_state.md R35, 60_exceptions.md R190): why the driver halted. `Status.code` gives the 3-bit code. -/
inductive Status where
  | ok
  | unhandled
  | haltRequested
  | stackOverflow
  | stackUnderflow
  | addressOutOfRange
  | fontWrite
deriving DecidableEq, Repr

/-- The environment's side: the model's own record, not state of the spec (DESIGN CHOICE, notes/assumptions/5.md).
`turns` lists coming turns, the next step's first; `drawn` counts the steps, for the free turns of the steps beyond the
list; `now` is the value the input `now` last had; `tickPeriod` carries the OPEN parameter `TICK_PERIOD` (00_scope.md
R5). -/
structure Env where
  turns      : List EnvTurn
  drawn      : Nat
  now        : Nat
  tickPeriod : Nat
deriving DecidableEq, Repr

/-- The machine state (10_state.md R20), and the environment's side. -/
structure State where
  /-- `V[0]` to `V[15]` (R21); `V[15]` is also the flag register (R22). -/
  v          : Vector Byte 16
  /-- `I` (R23). -/
  index      : Word
  /-- `pc` (R24). -/
  pc         : Word
  /-- `stack[0]` to `stack[15]` (R25). -/
  stack      : Vector Word 16
  /-- `SP`, the depth of the stack, a 5-bit register that never holds a value above 16 (R26). -/
  sp         : Fin 17
  /-- `DT` (R27). -/
  dt         : Byte
  /-- `ST` (R28). -/
  st         : Byte
  /-- `keys`, bit `k` is key `k` (R29). -/
  keys       : BitVec 16
  /-- The display's rows; column `x` is bit `x` of its row (R30, R31). -/
  disp       : Vector (BitVec 64) 32
  /-- `dirty` (R32). -/
  dirty      : Bool
  /-- `memory` (R33), the cells that differ from their reset contents, in canonical form (Memory.wf). -/
  mem        : List Host.Cell
  /-- `run_state` (R34). -/
  runState   : RunState
  /-- `status` (R35). -/
  status     : Status
  /-- `timer_stamp` (R36). -/
  timerStamp : Nat
  /-- The environment's side, not state of the spec. -/
  env        : Env
deriving DecidableEq, Repr

/-- Why a step could stop with no next state. There is no such reason: every terminal condition of this machine has its
effect in the spec (60_exceptions.md R198) and is a next state, halted, with its code in `status`. No constructor, so
no step can answer a fault. Safe: nothing stops. notes/assumptions/10.md. -/
inductive Fault : Type
deriving DecidableEq, Repr

/-- Why an instruction could have no meaning. -/
inductive Refusal where
  /-- Raised by an arm of `exec` whose instruction has no meaning yet; safe. No arm raises it: all 34 have theirs. -/
  | notModelled (mnemonic : String)
deriving DecidableEq, Repr

/-- The state right after `initialize` (10_state.md R39, R40). `timer_stamp` is `now` at `initialize`; here `now` is 0
(DESIGN CHOICE, notes/assumptions/9.md), no turn of the environment is listed (notes/assumptions/5.md) and the tick
period is its default (notes/assumptions/8.md). -/
def State.reset : State where
  v          := Vector.replicate 16 0
  index      := 0
  pc         := 0x200
  stack      := Vector.replicate 16 0
  sp         := 0
  dt         := 0
  st         := 0
  keys       := 0
  disp       := Vector.replicate 32 0
  dirty      := false
  mem        := []
  runState   := .running
  status     := .ok
  timerStamp := 0
  env        := { turns := [], drawn := 0, now := 0, tickPeriod := Config.tickPeriodDefault }

end Sys2Proof.Machine
end

