-- ==== Sys2Proof/Machine/Ops.lean ====
section
/-! DEFINITION. The named operations over the state: one way to read and one way to write each piece of it, the memory
access primitives (20_memory.md R65 to R67), terminal conditions as one operation with `initialize` beside it
(60_exceptions.md R198, R200), and the driver's fetch and timer update (40_engine.md R102, R106). -/

namespace Sys2Proof.Machine

/-! ### Registers -/

/-- Read of `V[r]` (00_scope.md R7). -/
def State.reg (s : State) (r : Reg) : Byte := s.v[r.val]

/-- Write of `V[r]`. -/
def State.setReg (s : State) (r : Reg) (b : Byte) : State := { s with v := s.v.set r.val b }

/-- Write of `I`. -/
def State.setIndex (s : State) (w : Word) : State := { s with index := w }

/-- Write of `pc`. -/
def State.setPc (s : State) (w : Word) : State := { s with pc := w }

/-- `pc <- (pc + 2) mod 65536`, the advance of an instruction that neither skips nor jumps (10_state.md R24). -/
def State.advance (s : State) : State := s.setPc (s.pc + 2)

/-- The advance of a skip instruction: by 4 when its condition holds, else by 2 (43_skip.md). -/
def State.skipIf (s : State) (c : Bool) : State := s.setPc (if c then s.pc + 4 else s.pc + 2)

/-- Write of `DT`. -/
def State.setDt (s : State) (b : Byte) : State := { s with dt := b }

/-- Write of `ST`. -/
def State.setSt (s : State) (b : Byte) : State := { s with st := b }

/-- `V[k]`, `V[k+1]`, ... take the bytes in order (45_index_memory.md R175). -/
def State.loadRegs (s : State) (k : Nat) : List Byte → State
  | [] => s
  | b :: bs => (s.setReg (Fin.ofNat 16 k) b).loadRegs (k + 1) bs

/-! ### Display -/

/-- The rows of the display, and `dirty` set as well where `changed` (10_state.md R32: the driver never clears it). -/
def State.setDisplay (s : State) (rows : Vector (BitVec 64) 32) (changed : Bool) : State :=
  { s with disp := rows, dirty := s.dirty || changed }

/-! ### Terminal conditions -/

/-- Entry of a terminal condition: `run_state <- HALTED; status <- code`, and nothing else (60_exceptions.md R198,
40_engine.md R100). -/
def State.halt (s : State) (c : Status) : State := { s with runState := .halted, status := c }

/-- `initialize`, the only way out of `HALTED` (60_exceptions.md R200): every field of the machine state takes its reset
value, `timer_stamp` the value of `now` (10_state.md R39, R40, R42). The environment's side is not machine state; its
clock has moved on by `elapsed`. -/
def State.reinit (s : State) (elapsed : Nat) : State :=
  { State.reset with
    timerStamp := s.env.now + elapsed
    env        := { s.env with now := s.env.now + elapsed } }

/-- The code of a status in the 3-bit register (60_exceptions.md R190). -/
def Status.code : Status → BitVec 3
  | .ok                => 0
  | .unhandled         => 1
  | .haltRequested     => 2
  | .stackOverflow     => 3
  | .stackUnderflow    => 4
  | .addressOutOfRange => 5
  | .fontWrite         => 6

/-- The result of a handler's body: the state it built, or the terminal condition that it raised before its first
write, entered from the state the instruction started in (60_exceptions.md R198). -/
def State.orHalt (s : State) : Except Status State → State
  | .ok t    => t
  | .error c => s.halt c

/-! ### Memory -/

/-- The byte that memory holds at an address. -/
def State.peek (s : State) (a : Nat) : Byte := Memory.read s.mem a

/-- `MemRead(a, 2)`, the fetch port's big-endian word (20_memory.md R63, R65). -/
def State.memReadWord (s : State) (a : Nat) : Except Status Word :=
  if a + 1 > 0xFFF then .error .addressOutOfRange else .ok (s.peek a ++ s.peek (a + 1))

/-- The fault of `n` single-byte reads at ascending addresses from `a`, all tested before any effect: none when `n` = 0,
whatever `a` is (20_memory.md R65, R67, 41_display.md R121, 45_index_memory.md R175, R176). -/
def readsFault (a n : Nat) : Option Status :=
  if n = 0 then none else if a + (n - 1) > 0xFFF then some .addressOutOfRange else none

/-- The bytes of `n` single-byte reads at ascending addresses from `a` (20_memory.md R68). With `n` = 1 it is
`MemRead(a, 1)` (R65). -/
def State.readBytes (s : State) (a n : Nat) : Except Status (List Byte) :=
  match readsFault a n with
  | some c => .error c
  | none   => .ok ((List.range n).map fun k => s.peek (a + k))

/-- The fault of `n` single-byte stores at ascending addresses from `a`, all tested before the first write: the range
test of the highest address, then the font test of the lowest (20_memory.md R66, R67, 45_index_memory.md R173, R174,
60_exceptions.md R199). -/
def storesFault (a n : Nat) : Option Status :=
  if n = 0 then none
  else if a + (n - 1) > 0xFFF then some .addressOutOfRange
  else if a ≤ 0x04F then some .fontWrite
  else none

/-- Stores of bytes at ascending addresses from `a` (20_memory.md R68). With one byte it is `MemWrite(a, 1, v)` (R66). -/
def State.storeBytes (s : State) (a : Nat) (bs : List Byte) : Except Status State :=
  match storesFault a bs.length with
  | some c => .error c
  | none   => .ok { s with mem := Memory.writeBytes s.mem a bs }

/-! ### Stack -/

/-- A push: `stack[SP] <- w; SP <- SP + 1`, or `StackOverflow` at `SP` = 16 (10_state.md R26, 42_stack_jump.md R132). -/
def State.push (s : State) (w : Word) : Except Status State :=
  if h : s.sp.val < 16 then
    .ok { s with stack := s.stack.set s.sp.val w, sp := ⟨s.sp.val + 1, by omega⟩ }
  else .error .stackOverflow

/-- A pop: `SP <- SP - 1`, then the entry at the new `SP`, which keeps its value; or `StackUnderflow` at `SP` = 0
(10_state.md R26, 42_stack_jump.md R130). -/
def State.pop (s : State) : Except Status (Word × State) :=
  if h : s.sp.val = 0 then .error .stackUnderflow
  else .ok (s.stack[s.sp.val - 1], { s with sp := ⟨s.sp.val - 1, by omega⟩ })

/-! ### The inputs of a step -/

/-- The turn of the `k`-th step, where none is listed for it: all of it is free, the moves and each of the four inputs
(00_scope.md R10, 10_state.md R54, notes/assumptions 5, 6, 7). -/
def freeTurn (k : Nat) : EnvTurn where
  moves       := Config.freeMoves k
  haltRequest := Config.freeHaltRequest k
  keyReport   := Config.freeKeyReport k
  randByte    := Config.freeRandByte k
  elapsed     := Config.freeElapsed k

/-- The environment's turn before and at the coming step: the first one listed, or a free one. -/
def State.turn (s : State) : EnvTurn :=
  match s.env.turns with
  | t :: _ => t
  | []     => freeTurn s.env.drawn

/-- The input `now` at the end of the coming step (10_state.md R52). -/
def State.nowInput (s : State) : Nat := s.env.now + s.turn.elapsed

/-- The step's turn is over: the next turn is the coming one, and `now` has the value this step saw. -/
def State.endTurn (s : State) : State :=
  { s with env := { s.env with turns := s.env.turns.tail, drawn := s.env.drawn + 1, now := s.nowInput } }

/-! ### The driver -/

/-- The fetch: `w = MemRead(pc, 2)` (40_engine.md R102). -/
def State.fetch (s : State) : Except Status Word := s.memReadWord s.pc.toNat

/-- A countdown by one, clamped at 0 (10_state.md R27, R28). -/
def countdown (b : Byte) : Byte := if b = 0 then 0 else b - 1

/-- Whether a tick is due: `now - timer_stamp >= TICK_PERIOD` (60_exceptions.md R202). -/
def State.tickDue (s : State) (now : Nat) : Bool := s.env.tickPeriod ≤ now - s.timerStamp

/-- `TimerUpdate(now)` (60_exceptions.md R202). -/
def State.timerUpdate (s : State) (now : Nat) : State :=
  { s with
    dt         := if s.tickDue now then countdown s.dt else s.dt
    st         := if s.tickDue now then countdown s.st else s.st
    timerStamp := if s.tickDue now then now else s.timerStamp }

end Sys2Proof.Machine
end

