-- ==== Sys2Proof/Machine/Flags.lean ====
section
/-! DEFINITION. The values that flag-writing instructions give `V[15]` (10_state.md R22), and the order of the two
writes (44_alu.md R162). -/

namespace Sys2Proof.Machine

/-- A flag as the value of `V[15]`: 1 or 0 (10_state.md R22). -/
def flagByte (f : Bool) : Byte := if f then 1 else 0

/-- Carry of `a + b` (44_alu.md R156, R163). -/
def carry (a b : Byte) : Bool := a.toNat + b.toNat > 255

/-- No-borrow of `a - b`: `a >= b`, equality included (44_alu.md R157, R163). -/
def noBorrow (a b : Byte) : Bool := b.toNat ≤ a.toNat

/-- The bit that a right shift by one shifts out (44_alu.md R159). -/
def shiftedOutRight (a : Byte) : Bool := a.getLsbD 0

/-- The bit that a left shift by one shifts out (44_alu.md R160). -/
def shiftedOutLeft (a : Byte) : Bool := a.getLsbD 7

/-- The result to `V[x]`, then the flag to `V[15]`, which is the later write (44_alu.md R162, decision D7,
notes/assumptions/12.md). -/
def State.setResultThenFlag (s : State) (x : Reg) (result : Byte) (flag : Bool) : State :=
  (s.setReg x result).setReg 15 (flagByte flag)

end Sys2Proof.Machine
end

