-- ==== Sys2Proof/Machine/Operands.lean ====
section
/-! DEFINITION. Operand forms: addresses, the data addressing mode, decimal digits, keys named by a register, and a sprite
as pixels of the display. -/

namespace Sys2Proof.Machine

/-- The address field as a value of `pc` or `I`: zero-extended (30_encoding.md R82). -/
def addrWord (nnn : BitVec 12) : Word := nnn.setWidth 16

/-- A byte as a 16-bit value: zero-extended. -/
def byteWord (b : Byte) : Word := b.setWidth 16

/-- `EA = I + k`, on natural numbers, with no reduction (45_index_memory.md R176). -/
def State.dataAddr (s : State) (k : Nat) : Nat := s.index.toNat + k

/-- `V[0]` to `V[x]`, the `x + 1` registers of `LD [I],Vx` (45_index_memory.md R174). -/
def State.regsUpTo (s : State) (x : Reg) : List Byte := s.v.toList.take (x.val + 1)

/-- The three decimal digits of a byte: hundreds, tens, ones (45_index_memory.md R173). -/
def decimalDigits (v : Byte) : List Byte :=
  [BitVec.ofNat 8 (v.toNat / 100), BitVec.ofNat 8 (v.toNat / 10 % 10), BitVec.ofNat 8 (v.toNat % 10)]

/-- The address of a digit's glyph: `FONT_BASE + 5 * v`, `FONT_BASE` = 0x000, the whole value of the register used
(45_index_memory.md R172, decision D24, notes/assumptions/18.md). -/
def glyphAddr (v : Byte) : Word := BitVec.ofNat 16 (5 * v.toNat)

/-- Whether the key that a register value names is pressed; a value above 15 names no key and counts as not pressed
(46_timer_io.md R180, decision D9, notes/assumptions/17.md). -/
def State.keyPressed (s : State) (k : Byte) : Bool := k.toNat ≤ 15 && s.keys.getLsbD k.toNat

/-- The pixel at `bit_offset` `c` of a sprite byte: bit 7 is the leftmost (41_display.md R122). PRESUMED (the spec's
general knowledge GK3), notes/assumptions/4.md. -/
def spriteBit (b : Byte) (c : Nat) : Bool := b.getLsbD (7 - c)

/-- The pixels of a display row that a sprite byte with its origin at column `x0` covers: `bit_offset` `c` is column
`(x0 + c) mod 64` (41_display.md R121, R123). -/
def spriteRow (x0 : Nat) (b : Byte) : BitVec 64 :=
  (List.range 8).foldl (fun m c => if spriteBit b c then m ||| BitVec.twoPow 64 ((x0 + c) % 64) else m) 0

/-- A draw under way: the display's rows, and the two flags of R121. -/
structure Drawing where
  rows      : Vector (BitVec 64) 32
  collision : Bool
  changed   : Bool
deriving DecidableEq, Repr

/-- One sprite byte XORed onto display row `yy mod 32` (41_display.md R121, R123). -/
def Drawing.plotRow (d : Drawing) (x0 yy : Nat) (b : Byte) : Drawing :=
  have h : yy % 32 < 32 := Nat.mod_lt _ (by decide)
  { rows      := d.rows.set (yy % 32) (d.rows[yy % 32] ^^^ spriteRow x0 b)
    collision := d.collision || (d.rows[yy % 32] &&& spriteRow x0 b != 0)
    changed   := d.changed || spriteRow x0 b != 0 }

/-- The sprite's bytes plotted on successive rows from `yy` on (41_display.md R121). -/
def Drawing.plot (d : Drawing) (x0 yy : Nat) : List Byte → Drawing
  | [] => d
  | b :: bs => (d.plotRow x0 yy b).plot x0 (yy + 1) bs

/-- Whether some pixel of the display is set. -/
def anyPixelSet (rows : Vector (BitVec 64) 32) : Bool := rows.toList.any (· != 0)

end Sys2Proof.Machine
end

