-- ==== Sys2Proof/Syntax.lean ====
section
/-! DEFINITION. The instructions: one constructor for each of the 34 rows of 30_encoding.md R85, in the table's order,
carrying the fields of the row's format (R83, R91). Also the decoder's record of a word (R81) and a dispatch row (R84). -/

namespace Sys2Proof

/-- An instruction (30_encoding.md R85, R91). `x`, `y` name registers, `nnn` is a 12-bit address, `kk` a byte, `n` a
nibble (R82). `shrVx` and `shlVx` keep the `y` field of their word, which their handlers do not use (R83). -/
inductive Instr where
  | cls
  | ret
  | jpAddr (nnn : BitVec 12)
  | callAddr (nnn : BitVec 12)
  | seVxKk (x : Reg) (kk : Byte)
  | sneVxKk (x : Reg) (kk : Byte)
  | seVxVy (x y : Reg)
  | ldVxKk (x : Reg) (kk : Byte)
  | addVxKk (x : Reg) (kk : Byte)
  | ldVxVy (x y : Reg)
  | orVxVy (x y : Reg)
  | andVxVy (x y : Reg)
  | xorVxVy (x y : Reg)
  | addVxVy (x y : Reg)
  | subVxVy (x y : Reg)
  | shrVx (x y : Reg)
  | subnVxVy (x y : Reg)
  | shlVx (x y : Reg)
  | sneVxVy (x y : Reg)
  | ldIAddr (nnn : BitVec 12)
  | jpV0Addr (nnn : BitVec 12)
  | rndVxKk (x : Reg) (kk : Byte)
  | drwVxVyN (x y : Reg) (n : BitVec 4)
  | skpVx (x : Reg)
  | sknpVx (x : Reg)
  | ldVxDt (x : Reg)
  | ldVxK (x : Reg)
  | ldDtVx (x : Reg)
  | ldStVx (x : Reg)
  | addIVx (x : Reg)
  | ldFVx (x : Reg)
  | ldBVx (x : Reg)
  | ldMemVx (x : Reg)
  | ldVxMem (x : Reg)
deriving DecidableEq, Repr

/-- An opcode family: one row of the dispatch table, without operands (00_scope.md R12). Constructors as in `Instr`. -/
inductive Family where
  | cls | ret | jpAddr | callAddr | seVxKk | sneVxKk | seVxVy | ldVxKk | addVxKk | ldVxVy | orVxVy | andVxVy | xorVxVy
  | addVxVy | subVxVy | shrVx | subnVxVy | shlVx | sneVxVy | ldIAddr | jpV0Addr | rndVxKk | drwVxVyN | skpVx | sknpVx
  | ldVxDt | ldVxK | ldDtVx | ldStVx | addIVx | ldFVx | ldBVx | ldMemVx | ldVxMem
deriving DecidableEq, Repr

/-- The decoder's output, "the raw 16-bit word plus its decoded fields"; all are cut from every word, whatever its
opcode (30_encoding.md R81). -/
structure Fields where
  word : Word
  op   : BitVec 4
  nnn  : BitVec 12
  x    : Reg
  y    : Reg
  kk   : Byte
  n    : BitVec 4
deriving DecidableEq, Repr

/-- One entry of the dispatch table, the document's "(opcode-prefix, bit-mask, handler) triple" (30_encoding.md R84);
`pattern` is the spec's `match`. -/
structure Row where
  pattern : Word
  mask    : Word
  family  : Family
deriving DecidableEq, Repr

/-- Whether a word matches a row: `(instruction & mask) == match` (30_encoding.md R84). -/
def Row.accepts (r : Row) (w : Word) : Bool := w &&& r.mask == r.pattern

end Sys2Proof
end

