-- ==== Sys2Proof/Machine/Display.lean ====
section
/-! DEFINITION. The display instructions (41_display.md). -/

namespace Sys2Proof.Machine

/-- `CLS` (R120): all pixels clear; `dirty` is set when some pixel was set, else keeps its value. -/
def execCls (s : State) : Host.Outcome State Fault Refusal :=
  .next (s.setDisplay (Vector.replicate 32 0) (anyPixelSet s.disp)).advance

/-- `DRW Vx,Vy,n` (R121 to R124): the coordinates are read first, then all the sprite's bytes with their range tests;
then the display, `V[15]` and `dirty` are written. -/
def execDrwVxVyN (x y : Reg) (n : BitVec 4) (s : State) : Host.Outcome State Fault Refusal :=
  .next <| s.orHalt <|
    (s.readBytes (s.dataAddr 0) n.toNat).map fun bytes =>
      let d := Drawing.plot ⟨s.disp, false, false⟩ ((s.reg x).toNat % 64) ((s.reg y).toNat % 32) bytes
      ((s.setDisplay d.rows d.changed).setReg 15 (flagByte d.collision)).advance

end Sys2Proof.Machine
end

