-- ==== Sys2Proof/Machine/IndexMem.lean ====
section
/-! DEFINITION. The index-register and memory instructions (45_index_memory.md). None changes `I` as a side effect of
addressing (R176). -/

namespace Sys2Proof.Machine

/-- `LD I,addr` (R170). -/
def execLdIAddr (nnn : BitVec 12) (s : State) : Host.Outcome State Fault Refusal :=
  .next (s.setIndex (addrWord nnn)).advance

/-- `ADD I,Vx` (R171): modulo 65536, no flag. -/
def execAddIVx (x : Reg) (s : State) : Host.Outcome State Fault Refusal :=
  .next (s.setIndex (s.index + byteWord (s.reg x))).advance

/-- `LD F,Vx` (R172). -/
def execLdFVx (x : Reg) (s : State) : Host.Outcome State Fault Refusal :=
  .next (s.setIndex (glyphAddr (s.reg x))).advance

/-- `LD B,Vx` (R173): the decimal digits of `V[x]` at `I`, `I + 1`, `I + 2`. -/
def execLdBVx (x : Reg) (s : State) : Host.Outcome State Fault Refusal :=
  .next <| s.orHalt <| (s.storeBytes (s.dataAddr 0) (decimalDigits (s.reg x))).map State.advance

/-- `LD [I],Vx` (R174): `V[0]` to `V[x]` at ascending addresses from `I`. -/
def execLdMemVx (x : Reg) (s : State) : Host.Outcome State Fault Refusal :=
  .next <| s.orHalt <| (s.storeBytes (s.dataAddr 0) (s.regsUpTo x)).map State.advance

/-- `LD Vx,[I]` (R175): `V[0]` to `V[x]` from ascending addresses from `I`. -/
def execLdVxMem (x : Reg) (s : State) : Host.Outcome State Fault Refusal :=
  .next <| s.orHalt <|
    (s.readBytes (s.dataAddr 0) (x.val + 1)).map fun bytes => (s.loadRegs 0 bytes).advance

end Sys2Proof.Machine
end

