-- ==== Sys2Proof/Machine/StackJump.lean ====
section
/-! DEFINITION. The stack and jump instructions (42_stack_jump.md). -/

namespace Sys2Proof.Machine

/-- `RET` (R130): pop the return address into `pc`; `StackUnderflow` on an empty stack. -/
def execRet (s : State) : Host.Outcome State Fault Refusal :=
  .next <| s.orHalt <| s.pop.map fun (w, t) => t.setPc w

/-- `JP addr` (R131). -/
def execJpAddr (nnn : BitVec 12) (s : State) : Host.Outcome State Fault Refusal :=
  .next (s.setPc (addrWord nnn))

/-- `CALL addr` (R132): push `pc + 2`, jump; `StackOverflow` on a full stack. -/
def execCallAddr (nnn : BitVec 12) (s : State) : Host.Outcome State Fault Refusal :=
  .next <| s.orHalt <| (s.push (s.pc + 2)).map fun t => t.setPc (addrWord nnn)

/-- `JP V0,addr` (R133): the sum is not reduced modulo 4096. -/
def execJpV0Addr (nnn : BitVec 12) (s : State) : Host.Outcome State Fault Refusal :=
  .next (s.setPc (addrWord nnn + byteWord (s.reg 0)))

end Sys2Proof.Machine
end

