-- ==== Sys2Proof/Machine/TimerIo.lean ====
section
/-! DEFINITION. The keyboard and timer instructions (46_timer_io.md). -/

namespace Sys2Proof.Machine

/-- `SKP Vx` (R180). -/
def execSkpVx (x : Reg) (s : State) : Host.Outcome State Fault Refusal :=
  .next (s.skipIf (s.keyPressed (s.reg x)))

/-- `SKNP Vx` (R181). -/
def execSknpVx (x : Reg) (s : State) : Host.Outcome State Fault Refusal :=
  .next (s.skipIf (!s.keyPressed (s.reg x)))

/-- `LD Vx,DT` (R182). -/
def execLdVxDt (x : Reg) (s : State) : Host.Outcome State Fault Refusal :=
  .next (s.setReg x s.dt).advance

/-- `LD DT,Vx` (R183); `timer_stamp` is not touched. -/
def execLdDtVx (x : Reg) (s : State) : Host.Outcome State Fault Refusal :=
  .next (s.setDt (s.reg x)).advance

/-- `LD ST,Vx` (R184); `timer_stamp` is not touched. -/
def execLdStVx (x : Reg) (s : State) : Host.Outcome State Fault Refusal :=
  .next (s.setSt (s.reg x)).advance

/-- `LD Vx,K` (R185): the step's input `key_report`; while none is reported the instruction stalls and no state
changes. -/
def execLdVxK (x : Reg) (s : State) : Host.Outcome State Fault Refusal :=
  .next <|
    match s.turn.keyReport with
    | none   => s
    | some k => (s.setReg x (k.setWidth 8)).advance

end Sys2Proof.Machine
end

