-- ==== Sys2Proof/WellFormed.lean ====
section
/-! DEFINITION. Well-formedness of what the decoder handles. Every operand range of 30_encoding.md R89 is a type of
`Instr` (a register is one of sixteen, an address has 12 bits, a byte 8, a nibble 4), so every `Instr` is well-formed as
it stands. What can be ill-formed is a record of fields that is not the record of its word (R81), and a dispatch row
that no word can match or a table in which a row shadows another (R84, R86). -/

namespace Sys2Proof

/-- Every field of the record is the slice of its word that R81 names, said in natural-number arithmetic. -/
def Fields.wellFormed (f : Fields) : Bool :=
  f.op.toNat == f.word.toNat / 4096 &&
  f.nnn.toNat == f.word.toNat % 4096 &&
  f.x.val == f.word.toNat / 256 % 16 &&
  f.y.val == f.word.toNat / 16 % 16 &&
  f.kk.toNat == f.word.toNat % 256 &&
  f.n.toNat == f.word.toNat % 16

/-- A row's pattern has no bit outside its mask: otherwise no word matches the row (R84). -/
def Row.wellFormed (r : Row) : Bool := r.pattern &&& r.mask == r.pattern

/-- No word matches both rows: on the bits that both masks fix, the patterns differ (R86). -/
def Row.disjoint (a b : Row) : Bool := a.pattern &&& b.mask != b.pattern &&& a.mask

end Sys2Proof
end

