-- ==== Sys2Proof/Decode.lean ====
section
/-! DEFINITION. The decoder (30_encoding.md R80 to R88): field extraction, the dispatch table scanned in order, and the
words that no row accepts; then the encoder, written from the same table and formats (R83, R85, R89). -/

namespace Sys2Proof

/-- The decoder's bit-field extraction (R81, R103). Field positions: DEDUCED by R81, notes/assumptions/3.md. -/
def fieldsOf (w : Word) : Fields where
  word := w
  op   := w.extractLsb' 12 4
  nnn  := w.extractLsb' 0 12
  x    := (w.extractLsb' 8 4).toFin
  y    := (w.extractLsb' 4 4).toFin
  kk   := w.extractLsb' 0 8
  n    := w.extractLsb' 0 4

/-- The row of a family in the table of R85. PRESUMED (the spec's general knowledge GK1), notes/assumptions/2.md. -/
def Family.row : Family → Row
  | .cls      => ⟨0x00E0, 0xFFFF, .cls⟩
  | .ret      => ⟨0x00EE, 0xFFFF, .ret⟩
  | .jpAddr   => ⟨0x1000, 0xF000, .jpAddr⟩
  | .callAddr => ⟨0x2000, 0xF000, .callAddr⟩
  | .seVxKk   => ⟨0x3000, 0xF000, .seVxKk⟩
  | .sneVxKk  => ⟨0x4000, 0xF000, .sneVxKk⟩
  | .seVxVy   => ⟨0x5000, 0xF00F, .seVxVy⟩
  | .ldVxKk   => ⟨0x6000, 0xF000, .ldVxKk⟩
  | .addVxKk  => ⟨0x7000, 0xF000, .addVxKk⟩
  | .ldVxVy   => ⟨0x8000, 0xF00F, .ldVxVy⟩
  | .orVxVy   => ⟨0x8001, 0xF00F, .orVxVy⟩
  | .andVxVy  => ⟨0x8002, 0xF00F, .andVxVy⟩
  | .xorVxVy  => ⟨0x8003, 0xF00F, .xorVxVy⟩
  | .addVxVy  => ⟨0x8004, 0xF00F, .addVxVy⟩
  | .subVxVy  => ⟨0x8005, 0xF00F, .subVxVy⟩
  | .shrVx    => ⟨0x8006, 0xF00F, .shrVx⟩
  | .subnVxVy => ⟨0x8007, 0xF00F, .subnVxVy⟩
  | .shlVx    => ⟨0x800E, 0xF00F, .shlVx⟩
  | .sneVxVy  => ⟨0x9000, 0xF00F, .sneVxVy⟩
  | .ldIAddr  => ⟨0xA000, 0xF000, .ldIAddr⟩
  | .jpV0Addr => ⟨0xB000, 0xF000, .jpV0Addr⟩
  | .rndVxKk  => ⟨0xC000, 0xF000, .rndVxKk⟩
  | .drwVxVyN => ⟨0xD000, 0xF000, .drwVxVyN⟩
  | .skpVx    => ⟨0xE09E, 0xF0FF, .skpVx⟩
  | .sknpVx   => ⟨0xE0A1, 0xF0FF, .sknpVx⟩
  | .ldVxDt   => ⟨0xF007, 0xF0FF, .ldVxDt⟩
  | .ldVxK    => ⟨0xF00A, 0xF0FF, .ldVxK⟩
  | .ldDtVx   => ⟨0xF015, 0xF0FF, .ldDtVx⟩
  | .ldStVx   => ⟨0xF018, 0xF0FF, .ldStVx⟩
  | .addIVx   => ⟨0xF01E, 0xF0FF, .addIVx⟩
  | .ldFVx    => ⟨0xF029, 0xF0FF, .ldFVx⟩
  | .ldBVx    => ⟨0xF033, 0xF0FF, .ldBVx⟩
  | .ldMemVx  => ⟨0xF055, 0xF0FF, .ldMemVx⟩
  | .ldVxMem  => ⟨0xF065, 0xF0FF, .ldVxMem⟩

/-- The families in the scan order of R85. -/
def dispatchOrder : List Family :=
  [.cls, .ret, .jpAddr, .callAddr, .seVxKk, .sneVxKk, .seVxVy, .ldVxKk, .addVxKk, .ldVxVy, .orVxVy, .andVxVy, .xorVxVy,
   .addVxVy, .subVxVy, .shrVx, .subnVxVy, .shlVx, .sneVxVy, .ldIAddr, .jpV0Addr, .rndVxKk, .drwVxVyN, .skpVx, .sknpVx,
   .ldVxDt, .ldVxK, .ldDtVx, .ldStVx, .addIVx, .ldFVx, .ldBVx, .ldMemVx, .ldVxMem]

/-- The dispatch table: "a fixed, ordered sequence of entries" (R84, R85). -/
def dispatchTable : List Row := dispatchOrder.map Family.row

/-- Dispatch over a table: the FIRST row that accepts the word (R84, R104). -/
def dispatchIn (table : List Row) (w : Word) : Option Family := (table.find? (·.accepts w)).map Row.family

/-- The instruction of a family, with the fields that the family's format uses (R83); the others "are simply unused". -/
def Family.instr (f : Fields) : Family → Instr
  | .cls      => .cls
  | .ret      => .ret
  | .jpAddr   => .jpAddr f.nnn
  | .callAddr => .callAddr f.nnn
  | .seVxKk   => .seVxKk f.x f.kk
  | .sneVxKk  => .sneVxKk f.x f.kk
  | .seVxVy   => .seVxVy f.x f.y
  | .ldVxKk   => .ldVxKk f.x f.kk
  | .addVxKk  => .addVxKk f.x f.kk
  | .ldVxVy   => .ldVxVy f.x f.y
  | .orVxVy   => .orVxVy f.x f.y
  | .andVxVy  => .andVxVy f.x f.y
  | .xorVxVy  => .xorVxVy f.x f.y
  | .addVxVy  => .addVxVy f.x f.y
  | .subVxVy  => .subVxVy f.x f.y
  | .shrVx    => .shrVx f.x f.y
  | .subnVxVy => .subnVxVy f.x f.y
  | .shlVx    => .shlVx f.x f.y
  | .sneVxVy  => .sneVxVy f.x f.y
  | .ldIAddr  => .ldIAddr f.nnn
  | .jpV0Addr => .jpV0Addr f.nnn
  | .rndVxKk  => .rndVxKk f.x f.kk
  | .drwVxVyN => .drwVxVyN f.x f.y f.n
  | .skpVx    => .skpVx f.x
  | .sknpVx   => .sknpVx f.x
  | .ldVxDt   => .ldVxDt f.x
  | .ldVxK    => .ldVxK f.x
  | .ldDtVx   => .ldDtVx f.x
  | .ldStVx   => .ldStVx f.x
  | .addIVx   => .addIVx f.x
  | .ldFVx    => .ldFVx f.x
  | .ldBVx    => .ldBVx f.x
  | .ldMemVx  => .ldMemVx f.x
  | .ldVxMem  => .ldVxMem f.x

/-- Why bytes decode to no instruction. -/
inductive Reject where
  /-- The word matches no row of the table (R87); the driver halts with status UNHANDLED. -/
  | unhandled (w : Word)
  /-- Fewer than the two bytes of an instruction (R80); no fetch produces this. -/
  | truncated
deriving DecidableEq, Repr

/-- Decode and dispatch a word: total on all 65536 words (R81, R87, R88, R91). -/
def decode (w : Word) : Except Reject Instr :=
  match dispatchIn dispatchTable w with
  | some fam => .ok (fam.instr (fieldsOf w))
  | none     => .error (.unhandled w)

/-- Decode the first instruction of a byte sequence, high byte first (20_memory.md R63), and the bytes after it. -/
def decodeBytes : List Byte → Except Reject (Instr × List Byte)
  | hi :: lo :: rest => (decode (hi ++ lo)).map (·, rest)
  | _ => .error .truncated

/-- What the decoder reads from the table's word `w` of `nbits` bits, laid out in memory high byte first. -/
def decodeTableWord (nbits w : Nat) : Option Instr :=
  let v := w % 2 ^ nbits
  match decodeBytes [BitVec.ofNat 8 (v / 256), BitVec.ofNat 8 v] with
  | .ok (i, _) => some i
  | .error _   => none

/-- A register name as the four bits that encode it. -/
def Reg.bits (r : Reg) : BitVec 4 := BitVec.ofFin r

/-- Format `A`: `op nnn` (R83). -/
def formA (op : BitVec 4) (nnn : BitVec 12) : Word := op ++ nnn

/-- Format `XK`: `op x kk` (R83). -/
def formXK (op : BitVec 4) (x : Reg) (kk : Byte) : Word := op ++ Reg.bits x ++ kk

/-- Formats `XY` and `XYN`: `op x y c`, the last nibble a constant or `n` (R83). -/
def formXY (op : BitVec 4) (x y : Reg) (c : BitVec 4) : Word := op ++ Reg.bits x ++ Reg.bits y ++ c

/-- The word of an instruction (R85, R89). -/
def encode : Instr → Word
  | .cls           => 0x00E0
  | .ret           => 0x00EE
  | .jpAddr nnn    => formA 0x1 nnn
  | .callAddr nnn  => formA 0x2 nnn
  | .seVxKk x kk   => formXK 0x3 x kk
  | .sneVxKk x kk  => formXK 0x4 x kk
  | .seVxVy x y    => formXY 0x5 x y 0x0
  | .ldVxKk x kk   => formXK 0x6 x kk
  | .addVxKk x kk  => formXK 0x7 x kk
  | .ldVxVy x y    => formXY 0x8 x y 0x0
  | .orVxVy x y    => formXY 0x8 x y 0x1
  | .andVxVy x y   => formXY 0x8 x y 0x2
  | .xorVxVy x y   => formXY 0x8 x y 0x3
  | .addVxVy x y   => formXY 0x8 x y 0x4
  | .subVxVy x y   => formXY 0x8 x y 0x5
  | .shrVx x y     => formXY 0x8 x y 0x6
  | .subnVxVy x y  => formXY 0x8 x y 0x7
  | .shlVx x y     => formXY 0x8 x y 0xE
  | .sneVxVy x y   => formXY 0x9 x y 0x0
  | .ldIAddr nnn   => formA 0xA nnn
  | .jpV0Addr nnn  => formA 0xB nnn
  | .rndVxKk x kk  => formXK 0xC x kk
  | .drwVxVyN x y n => formXY 0xD x y n
  | .skpVx x       => formXK 0xE x 0x9E
  | .sknpVx x      => formXK 0xE x 0xA1
  | .ldVxDt x      => formXK 0xF x 0x07
  | .ldVxK x       => formXK 0xF x 0x0A
  | .ldDtVx x      => formXK 0xF x 0x15
  | .ldStVx x      => formXK 0xF x 0x18
  | .addIVx x      => formXK 0xF x 0x1E
  | .ldFVx x       => formXK 0xF x 0x29
  | .ldBVx x       => formXK 0xF x 0x33
  | .ldMemVx x     => formXK 0xF x 0x55
  | .ldVxMem x     => formXK 0xF x 0x65

/-- The family of an instruction. -/
def Instr.family : Instr → Family
  | .cls            => .cls
  | .ret            => .ret
  | .jpAddr _       => .jpAddr
  | .callAddr _     => .callAddr
  | .seVxKk _ _     => .seVxKk
  | .sneVxKk _ _    => .sneVxKk
  | .seVxVy _ _     => .seVxVy
  | .ldVxKk _ _     => .ldVxKk
  | .addVxKk _ _    => .addVxKk
  | .ldVxVy _ _     => .ldVxVy
  | .orVxVy _ _     => .orVxVy
  | .andVxVy _ _    => .andVxVy
  | .xorVxVy _ _    => .xorVxVy
  | .addVxVy _ _    => .addVxVy
  | .subVxVy _ _    => .subVxVy
  | .shrVx _ _      => .shrVx
  | .subnVxVy _ _   => .subnVxVy
  | .shlVx _ _      => .shlVx
  | .sneVxVy _ _    => .sneVxVy
  | .ldIAddr _      => .ldIAddr
  | .jpV0Addr _     => .jpV0Addr
  | .rndVxKk _ _    => .rndVxKk
  | .drwVxVyN _ _ _ => .drwVxVyN
  | .skpVx _        => .skpVx
  | .sknpVx _       => .sknpVx
  | .ldVxDt _       => .ldVxDt
  | .ldVxK _        => .ldVxK
  | .ldDtVx _       => .ldDtVx
  | .ldStVx _       => .ldStVx
  | .addIVx _       => .addIVx
  | .ldFVx _        => .ldFVx
  | .ldBVx _        => .ldBVx
  | .ldMemVx _      => .ldMemVx
  | .ldVxMem _      => .ldVxMem

end Sys2Proof
end

