-- ==== Sys2Proof/Machine/Env.lean ====
section
/-! DEFINITION. The ports (10_state.md section 4): the environment's moves, which act between two steps only (R54), and
the outputs. -/

namespace Sys2Proof.Machine

/-- `set_key(index, pressed)`: one bit of `keys`, or nothing for an index above 15 (10_state.md R46). -/
def State.setKey (s : State) (index : Nat) (pressed : Bool) : State :=
  { s with
    keys := if index ≤ 15 then
              (if pressed then s.keys ||| BitVec.twoPow 16 index else s.keys &&& ~~~ BitVec.twoPow 16 index)
            else s.keys }

/-- `dirty_clear` (10_state.md R48). -/
def State.dirtyClear (s : State) : State := { s with dirty := false }

/-- `load_program` (10_state.md R43). -/
def State.loadProgram (s : State) (image : List Byte) : State := { s with mem := Memory.loadImage s.mem image }

/-- One move of the environment. -/
def EnvMove.apply (s : State) : EnvMove → State
  | .setKey index pressed => s.setKey index pressed
  | .dirtyClear           => s.dirtyClear
  | .reinit elapsed       => s.reinit elapsed
  | .loadProgram image    => s.loadProgram image

/-- The moves that the environment makes before the coming step, in their order (10_state.md R54). -/
def State.envMoves (s : State) : State := s.turn.moves.foldl EnvMove.apply s

/-- `get_pixel(x, y)`: the pixel, or 0 out of range (10_state.md R45). -/
def State.getPixel (s : State) (x y : Nat) : Bool :=
  if h : x ≤ 63 ∧ y ≤ 31 then s.disp[y].getLsbD x else false

/-- `should_play_sound` (10_state.md R47). -/
def State.shouldPlaySound (s : State) : Bool := s.st.toNat > 0

/-- The output `running` (10_state.md R44, R53). -/
def State.running (s : State) : Bool := s.runState == .running

/-- The output `status`, three bits (10_state.md R53). -/
def State.statusOut (s : State) : BitVec 3 := s.status.code

/-- Whether an instruction stalls in a state: `LD Vx,K` with no key reported (46_timer_io.md R185, 40_engine.md R109). -/
def stalls (i : Instr) (s : State) : Bool :=
  match i with
  | .ldVxK _ => s.turn.keyReport.isNone
  | _        => false

/-- Whether the driver's pass over a state stalls: it gets as far as an instruction (40_engine.md R100 lines 1 to 5), and
the instruction stalls. -/
def driverStalls (s : State) : Bool :=
  s.running && !s.turn.haltRequest &&
    match s.fetch with
    | .error _ => false
    | .ok w =>
      match decode w with
      | .error _ => false
      | .ok i    => stalls i s

/-- The output `waiting_for_key` of the coming step: 1 when that step stalls, which its driver's pass decides, after the
environment's moves (10_state.md R53, R54). -/
def State.waitingForKey (s : State) : Bool := driverStalls s.envMoves

/-- The end of a step whose handler left the state `t`, from the state `s` that it ran in: the timer update, unless the
instruction raised a terminal condition or stalled (40_engine.md R100 lines 6 and 7, R106, R108, R109). -/
def afterHandler (i : Instr) (s t : State) : State :=
  if stalls i s || t.runState == .halted then t else t.timerUpdate t.nowInput

end Sys2Proof.Machine
end

