-- ==== Sys2Proof/Machine/Step.lean ====
section
/-! DEFINITION. The step of 40_engine.md R100: the environment's moves before it (10_state.md R54), then one pass of the
execution driver, then the end of the environment's turn. -/

namespace Sys2Proof.Machine

/-- One pass of the execution driver, R100's `Step`: halted, halt request, fetch, decode and dispatch, handler, timer
update, in that order of priority (60_exceptions.md R199). -/
def driverStep (s : State) : Host.Outcome State Fault Refusal :=
  match s.runState with
  | .halted => .next s
  | .running =>
    if s.turn.haltRequest then .next (s.halt .haltRequested)
    else
      match s.fetch with
      | .error c => .next (s.halt c)
      | .ok w =>
        match decode w with
        | .error _ => .next (s.halt .unhandled)
        | .ok i =>
          match exec i s with
          | .next t    => .next (afterHandler i s t)
          | .fault r   => .fault r
          | .refused r => .refused r

/-- One step of the machine and its environment: the moves of the coming turn, the driver's step, and the turn is over.
A turn is used up by every step, also by one that stalls or finds the machine halted (notes/assumptions/5.md). -/
def step (s : State) : Host.Outcome State Fault Refusal :=
  match driverStep s.envMoves with
  | .next t    => .next t.endTurn
  | .fault r   => .fault r
  | .refused r => .refused r

/-- The word of an instruction stored at `pc`, high byte first (20_memory.md R63): the load of a program of one
instruction. The coming turn is fixed in what could keep the next step from fetching that word: it makes no move and
requests no halt; its other inputs stay as they are, free where no turn is listed. At a `pc` from which no fetch succeeds
(40_engine.md R102) nothing is stored. -/
def State.withFetchWord (s : State) (nbits w : Nat) : State :=
  let v := w % 2 ^ nbits
  if s.pc.toNat + 1 > 0xFFF then s
  else
    { s with
      mem := Memory.writeBytes s.mem s.pc.toNat [BitVec.ofNat 8 (v / 256), BitVec.ofNat 8 v]
      env := { s.env with turns := { s.turn with moves := [], haltRequest := false } :: s.env.turns.tail } }

end Sys2Proof.Machine
end

