-- ==== Sys2Proof/Safety.lean ====
section
/-! DEFINITION. What counts as a safe run, the invariant of the machine, and the words that statements use: what two
states have in common, and runs that the environment does not reset. -/

namespace Sys2Proof.Machine

/-- A condition "gone wrong", as 60_exceptions.md R200 reads it: any non-zero status that is not a clean end. -/
def Status.isFault : Status → Bool
  | .ok | .unhandled | .haltRequested => false
  | .stackOverflow | .stackUnderflow | .addressOutOfRange | .fontWrite => true

/-- A state of a safe run: the run has not gone wrong (60_exceptions.md R200). -/
def State.Safe (s : State) : Prop := s.status.isFault = false

/-- The font table is intact: addresses 0x000 to 0x04F hold the bytes of 20_memory.md R62 (R61's invariant). -/
abbrev State.FontIntact (s : State) : Prop := ∀ a < Config.fontSize, s.peek a = fontTable.getD a 0

/-- The invariant of every run: memory in canonical form; the font table intact (20_memory.md R61); the machine is
running exactly while `status` is OK (10_state.md R34, R35); the last tick is not in the future (60_exceptions.md
R202). -/
structure State.Inv (s : State) : Prop where
  memory  : Memory.wf s.mem = true
  font    : s.FontIntact
  running : s.runState = .running ↔ s.status = .ok
  stamp   : s.timerStamp ≤ s.env.now

/-! ### What two states have in common -/

/-- Every general register but those listed. -/
def SameRegsBut (changed : List Reg) (s t : State) : Prop := ∀ r, r ∉ changed → t.reg r = s.reg r

/-- Every byte of memory. -/
def SameMemory (s t : State) : Prop := ∀ a, t.peek a = s.peek a

/-- The stack and its pointer. -/
def SameStack (s t : State) : Prop := t.stack = s.stack ∧ t.sp = s.sp

/-- The timers and the time of the last tick. -/
def SameTimers (s t : State) : Prop := t.dt = s.dt ∧ t.st = s.st ∧ t.timerStamp = s.timerStamp

/-- The display and its dirty flag. -/
def SameDisplay (s t : State) : Prop := t.disp = s.disp ∧ t.dirty = s.dirty

/-- Whether and why the machine has halted. -/
def SameRunState (s t : State) : Prop := t.runState = s.runState ∧ t.status = s.status

/-- What no instruction writes (10_state.md R29): the keyboard mask, and the environment's side. -/
def SameInputs (s t : State) : Prop := t.keys = s.keys ∧ t.env = s.env

/-- All but the general registers, `I`, `pc` and memory. -/
def SameBesides (s t : State) : Prop :=
  SameStack s t ∧ SameTimers s t ∧ SameDisplay s t ∧ SameRunState s t ∧ SameInputs s t

/-- `pc` advances by two, modulo 65536 (10_state.md R24). -/
def Advances (s t : State) : Prop := t.pc.toNat = (s.pc.toNat + 2) % 65536

/-- An instruction writes the registers listed, moves on by two, and changes nothing else. -/
def WritesOnlyRegs (changed : List Reg) (s t : State) : Prop :=
  Advances s t ∧ SameRegsBut changed s t ∧ t.index = s.index ∧ SameMemory s t ∧ SameBesides s t

/-- An instruction changes `pc` and nothing else. -/
def WritesOnlyPc (s t : State) : Prop :=
  SameRegsBut [] s t ∧ t.index = s.index ∧ SameMemory s t ∧ SameBesides s t

/-- The machine halts with a code and nothing else changes (60_exceptions.md R198). -/
def HaltsWith (c : Status) (s t : State) : Prop := t = { s with runState := .halted, status := c }

/-- The driver is about to execute an instruction: it is running, the environment makes no move before the step and
requests no halt. -/
def State.Ready (s : State) : Prop :=
  s.runState = .running ∧ s.turn.moves = [] ∧ s.turn.haltRequest = false

/-- The word that the fetch port gives at `pc`, high byte first (20_memory.md R63); an instruction only when the fetch
does not fault. -/
def State.wordAtPc (s : State) : Word := s.peek s.pc.toNat ++ s.peek (s.pc.toNat + 1)

/-- The step halted the machine with a code; the environment's turn is over and nothing else changed. -/
def StepHaltsWith (c : Status) (s t : State) : Prop :=
  t = { s with runState := .halted, status := c, env := s.endTurn.env }

/-- The sprite of a `DRW Vx,Vy,n` has a pixel at a column and row of the display (41_display.md R121 to R123): byte `r`
of the sprite, bit `7 - c`, falls on row `(V[y] mod 32 + r) mod 32` and column `(V[x] mod 64 + c) mod 64`. -/
def State.SpriteAt (s : State) (x y : Reg) (n : BitVec 4) (col row : Nat) : Prop :=
  ∃ r < n.toNat, ∃ c < 8,
    row = ((s.reg y).toNat % 32 + r) % 32 ∧ col = ((s.reg x).toNat % 64 + c) % 64 ∧
    (s.peek (s.dataAddr r)).getLsbD (7 - c) = true

/-- The `x` field of an instruction that has one. -/
def xField : Instr → Option Reg
  | .seVxKk x _ | .sneVxKk x _ | .seVxVy x _ | .ldVxKk x _ | .addVxKk x _ | .ldVxVy x _ | .orVxVy x _ | .andVxVy x _
  | .xorVxVy x _ | .addVxVy x _ | .subVxVy x _ | .shrVx x _ | .subnVxVy x _ | .shlVx x _ | .sneVxVy x _ | .rndVxKk x _
  | .drwVxVyN x _ _ | .skpVx x | .sknpVx x | .ldVxDt x | .ldVxK x | .ldDtVx x | .ldStVx x | .addIVx x | .ldFVx x
  | .ldBVx x | .ldMemVx x | .ldVxMem x => some x
  | .cls | .ret | .jpAddr _ | .callAddr _ | .ldIAddr _ | .jpV0Addr _ => none

/-- The families that write `V[15]` as a side effect (10_state.md R22). -/
def flagWriters : List Family := [.addVxVy, .subVxVy, .subnVxVy, .shrVx, .shlVx, .drwVxVyN]

/-- The turn of the step after the next `k` steps: listed, or free. -/
def State.turnAt (s : State) (k : Nat) : EnvTurn := s.env.turns[k]?.getD (freeTurn (s.env.drawn + k))

end Sys2Proof.Machine
end

