-- ==== Sys2Proof/Certificates/Slice0/Obligations.lean ====
section
/-! DEFINITION. The statements for the provers, from the spec's numbered rules. An instruction's statement says that
exec ANSWERS a next state, what the rule gives that state, and what stays the same. -/

open Sys2Proof Sys2Proof.Machine

/-! ### Encoding -/

/-- Words written out from the encodings of 30_encoding.md R85, one or more of each instruction file, decode to the
instructions they stand for, and the nearest words outside the table (95_test_vectors.md 2.2) to none. The patterns are
PRESUMED (notes/assumptions/2.md). -/
def Obligations.DecodeReadsWrittenWords : Prop :=
  decode 0b0000000011100000 = .ok .cls ∧
  decode 0b1101000000010101 = .ok (.drwVxVyN 0 1 5) ∧
  decode 0b0000000011101110 = .ok .ret ∧
  decode 0b0001001000110100 = .ok (.jpAddr 0x234) ∧
  decode 0b0010010000000000 = .ok (.callAddr 0x400) ∧
  decode 0b1001001000110000 = .ok (.sneVxVy 2 3) ∧
  decode 0b1000101010110100 = .ok (.addVxVy 10 11) ∧
  decode 0b1000001001111110 = .ok (.shlVx 2 7) ∧
  decode 0b1111001101100101 = .ok (.ldVxMem 3) ∧
  decode 0b1110001010100001 = .ok (.sknpVx 2) ∧
  decode 0b1111111100001010 = .ok (.ldVxK 15) ∧
  decode 0b0000000000000000 = .error (.unhandled 0) ∧
  decode 0b0101000100100001 = .error (.unhandled 0x5121) ∧
  decode 0b1000000100101000 = .error (.unhandled 0x8128) ∧
  decode 0b1110000000000000 = .error (.unhandled 0xE000)

/-- Decoding the word that the encoder gives an instruction gives the instruction back, every operand at every value
(30_encoding.md R81, R85). The encodings are PRESUMED (notes/assumptions/2.md), the places of the fields DEDUCED
(notes/assumptions/3.md). -/
def Obligations.DecodeOfEncode : Prop := ∀ i : Instr, decode (encode i) = .ok i

/-- A word that decodes to an instruction is the word that the encoder gives it: no bit of a handled word is dropped
(30_encoding.md R81, R85; the unused `y` field of `SHR` and `SHL` is kept). Which words are handled is PRESUMED
(notes/assumptions/2.md). -/
def Obligations.EncodeOfDecode : Prop := ∀ (w : Word) (i : Instr), decode w = .ok i → encode i = w

/-- First-match dispatch gives the same family for every ordering of the rows (30_encoding.md R86, an inference of the
spec). It rests on the rows' patterns, which are PRESUMED (notes/assumptions/2.md). -/
def Obligations.DispatchIgnoresRowOrder : Prop :=
  ∀ rows : List Row, rows.Perm dispatchTable → ∀ w : Word, dispatchIn rows w = dispatchIn dispatchTable w

/-- The words that no row accepts, by their nibbles. This set is the model's choice, PRESUMED (notes/assumptions/2.md): it
is the complement of the 34 patterns, which the spec takes from general knowledge (GK1), under the strict masks of its
decision D18. 30_encoding.md R87 lists the same set for that table. -/
def Obligations.UnhandledWordsAreThoseListed : Prop :=
  ∀ w : Word, decode w = .error (.unhandled w) ↔
    (w.toNat / 4096 = 0x0 ∧ w.toNat ≠ 0x00E0 ∧ w.toNat ≠ 0x00EE) ∨
    (w.toNat / 4096 = 0x5 ∧ w.toNat % 16 ≠ 0) ∨
    (w.toNat / 4096 = 0x8 ∧ w.toNat % 16 ∈ [0x8, 0x9, 0xA, 0xB, 0xC, 0xD, 0xF]) ∨
    (w.toNat / 4096 = 0x9 ∧ w.toNat % 16 ≠ 0) ∨
    (w.toNat / 4096 = 0xE ∧ w.toNat % 256 ∉ [0x9E, 0xA1]) ∨
    (w.toNat / 4096 = 0xF ∧ w.toNat % 256 ∉ [0x07, 0x0A, 0x15, 0x18, 0x1E, 0x29, 0x33, 0x55, 0x65])

/-- The decoder cuts every field of R81's table from every word (the positions are the spec's own inference,
notes/assumptions/3.md). -/
def Obligations.FieldsAreSlicesOfTheWord : Prop :=
  ∀ w : Word, (fieldsOf w).word = w ∧ (fieldsOf w).wellFormed = true

/-! ### Reset and ports -/

/-- The values of 10_state.md R40 in the reset state, memory read byte by byte. The value 0 that `now` has there is the
model's choice (notes/assumptions/9.md); that `timer_stamp` is `now` is the rule's. -/
def Obligations.ResetValuesOfEveryField : Prop :=
  let s := State.reset
  (∀ r, s.reg r = 0) ∧ s.index = 0 ∧ s.pc = 0x200 ∧ (∀ k (h : k < 16), s.stack[k] = 0) ∧ s.sp = 0 ∧
  s.dt = 0 ∧ s.st = 0 ∧ s.keys = 0 ∧ (∀ col row, s.getPixel col row = false) ∧ s.dirty = false ∧
  s.FontIntact ∧ (∀ a, 0x050 ≤ a → a ≤ 0xFFF → s.peek a = 0) ∧
  s.runState = .running ∧ s.status = .ok ∧ s.timerStamp = s.env.now

/-- `initialize` from any state gives every field of the machine state the value that it has at reset, `timer_stamp` the
value of `now` then; the environment's side keeps its turns and its tick period (10_state.md R39, R42). -/
def Obligations.InitializeResetsEveryField : Prop :=
  ∀ (s : State) (elapsed : Nat),
    let t := (EnvMove.reinit elapsed).apply s
    t.env = { s.env with now := s.env.now + elapsed } ∧ t.timerStamp = t.env.now ∧
    { t with env := State.reset.env, timerStamp := State.reset.timerStamp } = State.reset

/-- `load_program` copies at most 3584 bytes to 0x200, zero-fills up to 0xFFF, and changes nothing else
(10_state.md R43). -/
def Obligations.LoadProgramCopiesAndZeroFills : Prop :=
  ∀ (s : State) (image : List Byte),
    let t := (EnvMove.loadProgram image).apply s
    let m := min image.length 3584
    (∀ k (h : k < m), t.peek (0x200 + k) = image[k]'(by omega)) ∧
    (∀ k, m ≤ k → k < 3584 → t.peek (0x200 + k) = 0) ∧
    (∀ a < 0x200, t.peek a = s.peek a) ∧
    t = { s with mem := t.mem }

/-- `set_key` writes one bit of `keys`; an index above 15 does nothing (10_state.md R46). -/
def Obligations.SetKeyWritesOneBit : Prop :=
  ∀ (s : State) (index : Nat) (pressed : Bool),
    let t := (EnvMove.setKey index pressed).apply s
    (∀ k < 16, t.keys.getLsbD k = if k = index then pressed else s.keys.getLsbD k) ∧
    (15 < index → t = s) ∧ t = { s with keys := t.keys }

/-- The other ports: `get_pixel` reads a pixel in range and 0 elsewhere (10_state.md R45), the sound output is `ST > 0`
(R47), `dirty_clear` clears `dirty` and nothing else (R48). -/
def Obligations.PortsReadPixelSoundAndClearDirty : Prop :=
  ∀ s : State,
    (∀ col row, col ≤ 63 → (h : row ≤ 31) → s.getPixel col row = s.disp[row].getLsbD col) ∧
    (∀ col row, 63 < col ∨ 31 < row → s.getPixel col row = false) ∧
    (s.shouldPlaySound = true ↔ 0 < s.st.toNat) ∧
    EnvMove.dirtyClear.apply s = { s with dirty := false }

/-! ### The step -/

/-- A step runs the decoded instruction (40_engine.md R100, R106, R108, R109): when the machine is ready and the word at
`pc` decodes to `i`, the step is what `exec` makes of `i`, then the timer update if the instruction completed, and the
environment's turn is over. -/
def Obligations.StepRunsTheDecodedInstruction : Prop :=
  ∀ (s t : State) (i : Instr), s.Ready → s.pc.toNat + 1 ≤ 0xFFF → decode s.wordAtPc = .ok i → exec i s = .next t →
    ((stalls i s = true ∨ t.runState = .halted) → step s = .next t.endTurn) ∧
    (stalls i s = false → t.runState = .running → step s = .next (t.timerUpdate t.nowInput).endTurn)

/-- The environment's moves all come before the step (10_state.md R54, 40_engine.md R113): a step is the step of the
state that the moves leave, its turn's inputs unchanged and no move left, whether the turn is listed or free. The
environment's turns are the model's own form of this (notes/assumptions/5.md). -/
def Obligations.EnvironmentMovesComeBeforeTheStep : Prop :=
  ∀ s : State,
    let u := s.turn.moves.foldl EnvMove.apply s
    step s = step { u with env := { u.env with turns := { s.turn with moves := [] } :: s.env.turns.tail } }

/-- In `HALTED`, steps change nothing, whatever the inputs of their turns, listed or free (40_engine.md R110). Only the
environment's side, which is not machine state, moves on (notes/assumptions/5.md). -/
def Obligations.HaltedStepsChangeNothing : Prop :=
  ∀ (n : Nat) (s : State), s.runState = .halted → (∀ k < n, (s.turnAt k).moves = []) →
    ∃ e : Env, core.run n s = .next { s with env := e }

/-- Only `initialize` leaves `HALTED`, and `status` holds until then (10_state.md R34, R35, 60_exceptions.md R200): in a
run of any length in which the environment makes any moves but that one. -/
def Obligations.OnlyInitializeLeavesHalted : Prop :=
  ∀ (n : Nat) (s : State), s.runState = .halted →
    (∀ k < n, ∀ elapsed, EnvMove.reinit elapsed ∉ (s.turnAt k).moves) →
    ∃ t : State, core.run n s = .next t ∧ t.runState = .halted ∧ t.status = s.status

/-- A halt request ends the run before the fetch, at any instruction (40_engine.md R101, 60_exceptions.md R196). -/
def Obligations.HaltRequestEndsTheRun : Prop :=
  ∀ s : State, s.runState = .running → s.turn.moves = [] → s.turn.haltRequest = true →
    ∃ t, step s = .next t ∧ StepHaltsWith .haltRequested s t

/-- The fetch (40_engine.md R102): the word at `pc` is `memory[pc] * 256 + memory[pc + 1]`; at `pc >= 0xFFF` the step
halts with `ADDRESS_OUT_OF_RANGE` and executes nothing. -/
def Obligations.FetchIsBigEndianAndRangeChecked : Prop :=
  ∀ s : State,
    (s.pc.toNat < 0xFFF → ∃ w : Word, s.fetch = .ok w ∧
      w.toNat = (s.peek s.pc.toNat).toNat * 256 + (s.peek (s.pc.toNat + 1)).toNat) ∧
    (0xFFF ≤ s.pc.toNat → s.Ready → ∃ t, step s = .next t ∧ StepHaltsWith .addressOutOfRange s t)

/-- A word that matches no row halts the machine with `UNHANDLED`; nothing else changes and the timers are not updated
(40_engine.md R107). -/
def Obligations.UnhandledWordHaltsCleanly : Prop :=
  ∀ s : State, s.Ready → s.pc.toNat < 0xFFF → decode s.wordAtPc = .error (.unhandled s.wordAtPc) →
    ∃ t, step s = .next t ∧ StepHaltsWith .unhandled s t

/-- Terminal conditions are precise (60_exceptions.md R198): whichever instruction or driver test halts a running
machine, the step changes `run_state` and `status` and nothing else. -/
def Obligations.TerminalConditionsArePrecise : Prop :=
  ∀ s t : State, s.runState = .running → s.turn.moves = [] → step s = .next t → t.runState = .halted →
    t.status ≠ .ok ∧ StepHaltsWith t.status s t

/-- A step at `LD Vx,K` with no key reported changes no state: not `pc`, not the timers, not `timer_stamp`
(40_engine.md R109). -/
def Obligations.KeyWaitStepChangesNothing : Prop :=
  ∀ (s : State) (x : Reg), s.Ready → s.pc.toNat < 0xFFF → decode s.wordAtPc = .ok (.ldVxK x) →
    s.turn.keyReport = none → step s = .next { s with env := s.endTurn.env } ∧ s.waitingForKey = true

/-- Every step of every state answers a next state: no fault, no refusal (all 34 instructions, every operand form). -/
def Obligations.EveryStepAnswersNext : Prop := ∀ s : State, ∃ t, step s = .next t

/-- The invariant holds at reset. -/
def Obligations.InvariantAtReset : Prop := State.reset.Inv

/-- Every step keeps the invariant, whatever the environment's moves and inputs and whatever the instruction: memory
stays in canonical form, the font table intact (20_memory.md R61), the machine running exactly while its status is OK
(10_state.md R34, R35), the last tick not in the future (60_exceptions.md R202). -/
def Obligations.InvariantKeptByEveryStep : Prop := ∀ s t : State, s.Inv → step s = .next t → t.Inv

/-- In a run of any length, from any state of the invariant, the font table is never altered (20_memory.md R61). The
bytes themselves are PRESUMED (notes/assumptions/1.md). -/
def Obligations.FontTableIsNeverAltered : Prop :=
  ∀ (n : Nat) (s t : State), s.Inv → core.run n s = .next t → ∀ a < 80, t.peek a = fontTable.getD a 0

/-- `TimerUpdate(now)` (60_exceptions.md R202): with a tick due each timer loses one, clamped at 0, and the stamp moves,
also when both were 0; else nothing changes. -/
def Obligations.TimerUpdateCountsDownOnATick : Prop :=
  ∀ (s : State) (now : Nat), s.timerStamp ≤ now →
    let t := s.timerUpdate now
    (s.env.tickPeriod ≤ now - s.timerStamp →
      t.dt.toNat = s.dt.toNat - 1 ∧ t.st.toNat = s.st.toNat - 1 ∧ t.timerStamp = now ∧
      t = { s with dt := t.dt, st := t.st, timerStamp := now }) ∧
    (now - s.timerStamp < s.env.tickPeriod → t = s)

/-- Each timer decreases by at most one in a step (60_exceptions.md R202), unless the step's instruction writes it; the
timers move only in a step that leaves the machine running. -/
def Obligations.TimersLoseAtMostOnePerStep : Prop :=
  ∀ s t : State, s.turn.moves = [] → step s = .next t →
    ((∀ x, decode s.wordAtPc ≠ .ok (.ldDtVx x)) → t.dt.toNat = s.dt.toNat ∨ t.dt.toNat + 1 = s.dt.toNat) ∧
    ((∀ x, decode s.wordAtPc ≠ .ok (.ldStVx x)) → t.st.toNat = s.st.toNat ∨ t.st.toNat + 1 = s.st.toNat) ∧
    (t.runState = .halted → SameTimers s t)

/-- The access primitives (20_memory.md R65, R66): a byte, and the fetch port's big-endian pair, are read when they lie
in 0x000 to 0xFFF; a byte is stored when it lies in 0x050 to 0xFFF, and then no other byte changes; the range is tested
before the font table. -/
def Obligations.AccessesAreRangeAndFontChecked : Prop :=
  ∀ (s : State) (a : Nat) (v : Byte),
    (a ≤ 0xFFF → s.readBytes a 1 = .ok [s.peek a]) ∧
    (0xFFF < a → s.readBytes a 1 = .error .addressOutOfRange) ∧
    (a + 1 ≤ 0xFFF → ∃ w : Word, s.memReadWord a = .ok w ∧ w.toNat = (s.peek a).toNat * 256 + (s.peek (a + 1)).toNat) ∧
    (0xFFF < a + 1 → s.memReadWord a = .error .addressOutOfRange) ∧
    (0xFFF < a → s.storeBytes a [v] = .error .addressOutOfRange) ∧
    (a ≤ 0x04F → s.storeBytes a [v] = .error .fontWrite) ∧
    (0x04F < a → a ≤ 0xFFF → ∃ t, s.storeBytes a [v] = .ok t ∧ t.peek a = v ∧ (∀ b, b ≠ a → t.peek b = s.peek b) ∧
      t = { s with mem := t.mem })

/-! ### Whole-machine rules -/

/-- `V[15]` and its writers (10_state.md R22): a flag-writing instruction that completes leaves 0 or 1 there; any other
leaves `V[15]` as it was unless its field `x` is 15. -/
def Obligations.FlagRegisterHasItsWriters : Prop :=
  ∀ (i : Instr) (s t : State), exec i s = .next t →
    (i.family ∈ flagWriters → t.runState = .running → t.reg 15 = 0 ∨ t.reg 15 = 1) ∧
    (i.family ∉ flagWriters → xField i ≠ some 15 → t.reg 15 = s.reg 15)

/-- `I` is written by `LD I,addr`, `ADD I,Vx`, `LD F,Vx` and nothing else (10_state.md R23). -/
def Obligations.IndexHasItsWriters : Prop :=
  ∀ (i : Instr) (s t : State), exec i s = .next t → i.family ∉ [.ldIAddr, .addIVx, .ldFVx] → t.index = s.index

/-- Only `CALL` writes a stack entry, and only `CALL` and `RET` move the pointer (10_state.md R25). -/
def Obligations.StackHasItsWriters : Prop :=
  ∀ (i : Instr) (s t : State), exec i s = .next t →
    (i.family ≠ .callAddr → t.stack = s.stack) ∧ (i.family ∉ [.callAddr, .ret] → t.sp = s.sp)

/-- Only `CLS` and `DRW` write the display (10_state.md R30), and no instruction clears `dirty` (R32). -/
def Obligations.DisplayHasItsWriters : Prop :=
  ∀ (i : Instr) (s t : State), exec i s = .next t →
    (i.family ∉ [.cls, .drwVxVyN] → SameDisplay s t) ∧ (s.dirty = true → t.dirty = true) ∧
    (t.disp ≠ s.disp → t.dirty = true)

/-- Only `LD B,Vx` and `LD [I],Vx` write memory, and never at an address below 0x050 (20_memory.md R60, R61, R72). -/
def Obligations.MemoryHasItsWriters : Prop :=
  ∀ (i : Instr) (s t : State), exec i s = .next t →
    (i.family ∉ [.ldBVx, .ldMemVx] → SameMemory s t) ∧ (∀ a < 0x050, t.peek a = s.peek a)

/-- No instruction writes `keys`, `timer_stamp` or the environment's side (10_state.md R29, R36); `DT` is written by
`LD DT,Vx` only and `ST` by `LD ST,Vx` only (R27, R28). -/
def Obligations.KeysAndTimersHaveTheirWriters : Prop :=
  ∀ (i : Instr) (s t : State), exec i s = .next t →
    SameInputs s t ∧ t.timerStamp = s.timerStamp ∧ (i.family ≠ .ldDtVx → t.dt = s.dt) ∧
    (i.family ≠ .ldStVx → t.st = s.st)

/-- Only `RND` reads `rand_byte` and only `LD Vx,K` reads `key_report` (40_engine.md R114): with any other environment
that agrees on the one input that the instruction reads, it has the same effect. -/
def Obligations.InstructionsReadNoOtherInput : Prop :=
  ∀ (i : Instr) (s t : State) (e : Env),
    (i.family = .rndVxKk → (State.turn { s with env := e }).randByte = s.turn.randByte) →
    (i.family = .ldVxK → (State.turn { s with env := e }).keyReport = s.turn.keyReport) →
    exec i s = .next t → exec i { s with env := e } = .next { t with env := e }

/-- A store is seen by the very next fetch (20_memory.md R63, R74, inferences of the spec): after `LD [I],Vx` over the
word at the new `pc`, the fetch reads the registers stored there, the lower-numbered one as the high byte. -/
def Obligations.StoredCodeIsFetchedNext : Prop :=
  ∀ (s : State) (x : Reg) (k : Nat) (hk : k + 1 ≤ x.val),
    0x050 ≤ s.index.toNat → s.index.toNat + x.val ≤ 0xFFF → s.index.toNat + k = (s.pc.toNat + 2) % 65536 →
    ∃ t, exec (.ldMemVx x) s = .next t ∧
      t.fetch = .ok (s.reg ⟨k, by omega⟩ ++ s.reg ⟨k + 1, by omega⟩)

/-- A `RET` that finds the stack as a `CALL` left it comes back to the word after the `CALL`, at the depth before it
(42_stack_jump.md R130, R132). -/
def Obligations.RetComesBackAfterCall : Prop :=
  ∀ (s : State) (nnn : BitVec 12), s.sp.val < 16 →
    ∃ t, exec (.callAddr nnn) s = .next t ∧
      ∀ u : State, u.stack = t.stack → u.sp = t.sp →
        ∃ v, exec .ret u = .next v ∧ v.pc.toNat = (s.pc.toNat + 2) % 65536 ∧ v.sp = s.sp

/-- Drawing the same sprite twice at the same place restores the display (70_reset_and_hazards.md R231), and the second
draw reports a collision exactly when some pixel under the sprite was clear before the first. That condition is the
model's, DEDUCED from 41_display.md R121 (notes/assumptions/29.md): R231's plain words say that the second draw reports a
collision, with no condition. Which pixels lie under a sprite rests on the bit order, PRESUMED (notes/assumptions/4.md).
The coordinates are not in `V[15]`, which the first draw overwrites. -/
def Obligations.DrawingTwiceRestoresTheDisplay : Prop :=
  ∀ (s : State) (x y : Reg) (n : BitVec 4), x ≠ 15 → y ≠ 15 → n.toNat = 0 ∨ s.index.toNat + n.toNat ≤ 0x1000 →
    ∃ t u, exec (.drwVxVyN x y n) s = .next t ∧ exec (.drwVxVyN x y n) t = .next u ∧ u.disp = s.disp ∧
      (u.reg 15 = 1 ↔ ∃ col row, s.getPixel col row = false ∧ s.SpriteAt x y n col row)

/-! ### Display instructions -/

/-- `CLS` (41_display.md R120). -/
def Obligations.ClsClearsTheDisplay : Prop :=
  ∀ s : State, ∃ t, exec .cls s = .next t ∧
    (∀ col row, t.getPixel col row = false) ∧
    (t.dirty = true ↔ s.dirty = true ∨ ∃ col row, s.getPixel col row = true) ∧
    Advances s t ∧ SameRegsBut [] s t ∧ t.index = s.index ∧ SameMemory s t ∧
    SameStack s t ∧ SameTimers s t ∧ SameRunState s t ∧ SameInputs s t

/-- `DRW Vx,Vy,n` (41_display.md R121, R123, R124): with its bytes in range, or none, every pixel under the sprite is
flipped and no other; `V[15]` is the collision; `dirty` is set when some byte is not zero; out of range, nothing is drawn
and the machine halts. The bit order inside a byte is PRESUMED (R122, notes/assumptions/4.md). -/
def Obligations.DrwFlipsTheSpritesPixels : Prop :=
  ∀ (s : State) (x y : Reg) (n : BitVec 4),
    (n.toNat = 0 ∨ s.index.toNat + n.toNat ≤ 0x1000 → ∃ t, exec (.drwVxVyN x y n) s = .next t ∧
      (∀ col row, col < 64 → row < 32 →
        (t.getPixel col row = true ↔ (s.getPixel col row = true ↔ ¬ s.SpriteAt x y n col row))) ∧
      ((∃ col row, s.getPixel col row = true ∧ s.SpriteAt x y n col row) → t.reg 15 = 1) ∧
      ((¬ ∃ col row, s.getPixel col row = true ∧ s.SpriteAt x y n col row) → t.reg 15 = 0) ∧
      (t.dirty = true ↔ s.dirty = true ∨ ∃ r < n.toNat, s.peek (s.dataAddr r) ≠ 0) ∧
      Advances s t ∧ SameRegsBut [15] s t ∧ t.index = s.index ∧ SameMemory s t ∧
      SameStack s t ∧ SameTimers s t ∧ SameRunState s t ∧ SameInputs s t) ∧
    (1 ≤ n.toNat → 0xFFF < s.index.toNat + n.toNat - 1 → ∃ t, exec (.drwVxVyN x y n) s = .next t ∧
      HaltsWith .addressOutOfRange s t)

/-! ### Stack and jump instructions -/

/-- `RET` (42_stack_jump.md R130). -/
def Obligations.RetPopsIntoPc : Prop :=
  ∀ s : State,
    (∀ d (h : d < 16), s.sp.val = d + 1 → ∃ t, exec .ret s = .next t ∧
      t.pc = s.stack[d] ∧ t.sp.val = d ∧ t.stack = s.stack ∧
      SameRegsBut [] s t ∧ t.index = s.index ∧ SameMemory s t ∧ SameTimers s t ∧ SameDisplay s t ∧
      SameRunState s t ∧ SameInputs s t) ∧
    (s.sp.val = 0 → ∃ t, exec .ret s = .next t ∧ HaltsWith .stackUnderflow s t)

/-- `JP addr` (42_stack_jump.md R131). -/
def Obligations.JpSetsPc : Prop :=
  ∀ (s : State) (nnn : BitVec 12), ∃ t, exec (.jpAddr nnn) s = .next t ∧ t.pc.toNat = nnn.toNat ∧ WritesOnlyPc s t

/-- `CALL addr` (42_stack_jump.md R132). -/
def Obligations.CallPushesAndJumps : Prop :=
  ∀ (s : State) (nnn : BitVec 12),
    (∀ h : s.sp.val < 16, ∃ t, exec (.callAddr nnn) s = .next t ∧
      t.pc.toNat = nnn.toNat ∧ t.sp.val = s.sp.val + 1 ∧
      t.stack[s.sp.val].toNat = (s.pc.toNat + 2) % 65536 ∧
      (∀ k (hk : k < 16), k ≠ s.sp.val → t.stack[k] = s.stack[k]) ∧
      SameRegsBut [] s t ∧ t.index = s.index ∧ SameMemory s t ∧ SameTimers s t ∧ SameDisplay s t ∧
      SameRunState s t ∧ SameInputs s t) ∧
    (s.sp.val = 16 → ∃ t, exec (.callAddr nnn) s = .next t ∧ HaltsWith .stackOverflow s t)

/-- `JP V0,addr` (42_stack_jump.md R133): the sum is not reduced. -/
def Obligations.JpV0AddsV0 : Prop :=
  ∀ (s : State) (nnn : BitVec 12), ∃ t, exec (.jpV0Addr nnn) s = .next t ∧
    t.pc.toNat = nnn.toNat + (s.reg 0).toNat ∧ WritesOnlyPc s t

/-! ### Skip instructions -/

/-- `SE` and `SNE` in both forms (43_skip.md R140 to R143): `pc` moves on by 4 when the comparison holds, else by 2,
modulo 65536; nothing else changes. -/
def Obligations.CompareSkipsMovePcByFourOrTwo : Prop :=
  ∀ (s : State) (x y : Reg) (kk : Byte),
    (∃ t, exec (.seVxKk x kk) s = .next t ∧ WritesOnlyPc s t ∧
      t.pc.toNat = (s.pc.toNat + if s.reg x = kk then 4 else 2) % 65536) ∧
    (∃ t, exec (.sneVxKk x kk) s = .next t ∧ WritesOnlyPc s t ∧
      t.pc.toNat = (s.pc.toNat + if s.reg x ≠ kk then 4 else 2) % 65536) ∧
    (∃ t, exec (.seVxVy x y) s = .next t ∧ WritesOnlyPc s t ∧
      t.pc.toNat = (s.pc.toNat + if s.reg x = s.reg y then 4 else 2) % 65536) ∧
    (∃ t, exec (.sneVxVy x y) s = .next t ∧ WritesOnlyPc s t ∧
      t.pc.toNat = (s.pc.toNat + if s.reg x ≠ s.reg y then 4 else 2) % 65536)

/-! ### Register and arithmetic instructions -/

/-- `LD Vx,kk` and `LD Vx,Vy` (44_alu.md R150, R151). -/
def Obligations.LoadsCopyIntoVx : Prop :=
  ∀ (s : State) (x y : Reg) (kk : Byte),
    (∃ t, exec (.ldVxKk x kk) s = .next t ∧ t.reg x = kk ∧ WritesOnlyRegs [x] s t) ∧
    (∃ t, exec (.ldVxVy x y) s = .next t ∧ t.reg x = s.reg y ∧ WritesOnlyRegs [x] s t)

/-- `ADD Vx,kk` (44_alu.md R152): no flag. -/
def Obligations.AddImmediateWrapsWithoutFlag : Prop :=
  ∀ (s : State) (x : Reg) (kk : Byte), ∃ t, exec (.addVxKk x kk) s = .next t ∧
    (t.reg x).toNat = ((s.reg x).toNat + kk.toNat) % 256 ∧ WritesOnlyRegs [x] s t

/-- `OR`, `AND`, `XOR` (44_alu.md R153 to R155), bit by bit; no flag. -/
def Obligations.LogicCombinesBitsWithoutFlag : Prop :=
  ∀ (s : State) (x y : Reg),
    (∃ t, exec (.orVxVy x y) s = .next t ∧ WritesOnlyRegs [x] s t ∧
      ∀ k, (t.reg x).getLsbD k = ((s.reg x).getLsbD k || (s.reg y).getLsbD k)) ∧
    (∃ t, exec (.andVxVy x y) s = .next t ∧ WritesOnlyRegs [x] s t ∧
      ∀ k, (t.reg x).getLsbD k = ((s.reg x).getLsbD k && (s.reg y).getLsbD k)) ∧
    (∃ t, exec (.xorVxVy x y) s = .next t ∧ WritesOnlyRegs [x] s t ∧
      ∀ k, (t.reg x).getLsbD k = ((s.reg x).getLsbD k ^^ (s.reg y).getLsbD k))

/-- `ADD Vx,Vy` (44_alu.md R156): sum modulo 256 and carry; with `x` = 15 the carry stays. -/
def Obligations.AddSetsSumThenCarry : Prop :=
  ∀ (s : State) (x y : Reg), ∃ t, exec (.addVxVy x y) s = .next t ∧ WritesOnlyRegs [x, 15] s t ∧
    (x ≠ 15 → (t.reg x).toNat = ((s.reg x).toNat + (s.reg y).toNat) % 256) ∧
    (t.reg 15).toNat = if 255 < (s.reg x).toNat + (s.reg y).toNat then 1 else 0

/-- `SUB` and `SUBN` (44_alu.md R157, R158): difference modulo 256 and no-borrow; with `x` = 15 the flag stays. -/
def Obligations.SubtractionsSetDifferenceThenNoBorrow : Prop :=
  ∀ (s : State) (x y : Reg),
    (∃ t, exec (.subVxVy x y) s = .next t ∧ WritesOnlyRegs [x, 15] s t ∧
      (x ≠ 15 → ((t.reg x).toNat : Int) = ((s.reg x).toNat - (s.reg y).toNat : Int) % 256) ∧
      (t.reg 15).toNat = if (s.reg y).toNat ≤ (s.reg x).toNat then 1 else 0) ∧
    (∃ t, exec (.subnVxVy x y) s = .next t ∧ WritesOnlyRegs [x, 15] s t ∧
      (x ≠ 15 → ((t.reg x).toNat : Int) = ((s.reg y).toNat - (s.reg x).toNat : Int) % 256) ∧
      (t.reg 15).toNat = if (s.reg x).toNat ≤ (s.reg y).toNat then 1 else 0)

/-- `SHR` and `SHL` (44_alu.md R159, R160): half or double, the bit shifted out as the flag; all values of `y` give the
same result. -/
def Obligations.ShiftsSetResultThenBitShiftedOut : Prop :=
  ∀ (s : State) (x y : Reg),
    (∃ t, exec (.shrVx x y) s = .next t ∧ WritesOnlyRegs [x, 15] s t ∧
      (x ≠ 15 → (t.reg x).toNat = (s.reg x).toNat / 2) ∧ (t.reg 15).toNat = (s.reg x).toNat % 2) ∧
    (∃ t, exec (.shlVx x y) s = .next t ∧ WritesOnlyRegs [x, 15] s t ∧
      (x ≠ 15 → (t.reg x).toNat = 2 * (s.reg x).toNat % 256) ∧ (t.reg 15).toNat = (s.reg x).toNat / 128)

/-- `RND Vx,kk` (44_alu.md R161): the step's random byte, whatever it is, masked; bits of `V[x]` where `kk` has a 0 are
0. -/
def Obligations.RndMasksTheRandomByte : Prop :=
  ∀ (s : State) (x : Reg) (kk : Byte), ∃ t, exec (.rndVxKk x kk) s = .next t ∧ WritesOnlyRegs [x] s t ∧
    (∀ k, (t.reg x).getLsbD k = (s.turn.randByte.getLsbD k && kk.getLsbD k))

/-! ### Index-register and memory instructions -/

/-- `LD I,addr`, `ADD I,Vx`, `LD F,Vx` (45_index_memory.md R170 to R172). -/
def Obligations.IndexInstructionsWriteIndex : Prop :=
  ∀ (s : State) (x : Reg) (nnn : BitVec 12),
    (∃ t, exec (.ldIAddr nnn) s = .next t ∧ t.index.toNat = nnn.toNat ∧
      Advances s t ∧ SameRegsBut [] s t ∧ SameMemory s t ∧ SameBesides s t) ∧
    (∃ t, exec (.addIVx x) s = .next t ∧ t.index.toNat = (s.index.toNat + (s.reg x).toNat) % 65536 ∧
      Advances s t ∧ SameRegsBut [] s t ∧ SameMemory s t ∧ SameBesides s t) ∧
    (∃ t, exec (.ldFVx x) s = .next t ∧ t.index.toNat = 5 * (s.reg x).toNat ∧
      Advances s t ∧ SameRegsBut [] s t ∧ SameMemory s t ∧ SameBesides s t)

/-- `LD B,Vx` (45_index_memory.md R173): the three digits at `I`, `I + 1`, `I + 2`, every other byte as before; out of
range, or in the font table, nothing is written and the machine halts. -/
def Obligations.LdBStoresDecimalDigits : Prop :=
  ∀ (s : State) (x : Reg),
    (0x050 ≤ s.index.toNat → s.index.toNat + 2 ≤ 0xFFF → ∃ t, exec (.ldBVx x) s = .next t ∧
      (t.peek (s.dataAddr 0)).toNat = (s.reg x).toNat / 100 ∧
      (t.peek (s.dataAddr 1)).toNat = (s.reg x).toNat / 10 % 10 ∧
      (t.peek (s.dataAddr 2)).toNat = (s.reg x).toNat % 10 ∧
      (∀ a, a < s.dataAddr 0 ∨ s.dataAddr 2 < a → t.peek a = s.peek a) ∧
      Advances s t ∧ SameRegsBut [] s t ∧ t.index = s.index ∧ SameBesides s t) ∧
    (0xFFF < s.index.toNat + 2 → ∃ t, exec (.ldBVx x) s = .next t ∧ HaltsWith .addressOutOfRange s t) ∧
    (s.index.toNat ≤ 0x04F → ∃ t, exec (.ldBVx x) s = .next t ∧ HaltsWith .fontWrite s t)

/-- `LD [I],Vx` (45_index_memory.md R174): `V[0]` to `V[x]` at `I` to `I + x`, every other byte as before; out of range,
or in the font table, nothing is written and the machine halts. -/
def Obligations.LdMemStoresRegisters : Prop :=
  ∀ (s : State) (x : Reg),
    (0x050 ≤ s.index.toNat → s.index.toNat + x.val ≤ 0xFFF → ∃ t, exec (.ldMemVx x) s = .next t ∧
      (∀ k : Reg, k ≤ x → t.peek (s.dataAddr k.val) = s.reg k) ∧
      (∀ a, a < s.dataAddr 0 ∨ s.dataAddr x.val < a → t.peek a = s.peek a) ∧
      Advances s t ∧ SameRegsBut [] s t ∧ t.index = s.index ∧ SameBesides s t) ∧
    (0xFFF < s.index.toNat + x.val → ∃ t, exec (.ldMemVx x) s = .next t ∧ HaltsWith .addressOutOfRange s t) ∧
    (s.index.toNat ≤ 0x04F → ∃ t, exec (.ldMemVx x) s = .next t ∧ HaltsWith .fontWrite s t)

/-- `LD Vx,[I]` (45_index_memory.md R175): `V[0]` to `V[x]` from `I` to `I + x`, the font table included, every other
register as before; out of range no register is written and the machine halts. -/
def Obligations.LdVxMemLoadsRegisters : Prop :=
  ∀ (s : State) (x : Reg),
    (s.index.toNat + x.val ≤ 0xFFF → ∃ t, exec (.ldVxMem x) s = .next t ∧
      (∀ k : Reg, k ≤ x → t.reg k = s.peek (s.dataAddr k.val)) ∧ (∀ k : Reg, x < k → t.reg k = s.reg k) ∧
      Advances s t ∧ t.index = s.index ∧ SameMemory s t ∧ SameBesides s t) ∧
    (0xFFF < s.index.toNat + x.val → ∃ t, exec (.ldVxMem x) s = .next t ∧ HaltsWith .addressOutOfRange s t)

/-! ### Keyboard and timer instructions -/

/-- `SKP` and `SKNP` (46_timer_io.md R180, R181): the key is the register's value; above 15 it is not pressed. -/
def Obligations.KeySkipsTestTheNamedKey : Prop :=
  ∀ (s : State) (x : Reg),
    let pressed := (s.reg x).toNat ≤ 15 ∧ s.keys.getLsbD (s.reg x).toNat = true
    (pressed → ∃ t, exec (.skpVx x) s = .next t ∧ WritesOnlyPc s t ∧ t.pc.toNat = (s.pc.toNat + 4) % 65536) ∧
    (¬ pressed → ∃ t, exec (.skpVx x) s = .next t ∧ WritesOnlyPc s t ∧ t.pc.toNat = (s.pc.toNat + 2) % 65536) ∧
    (¬ pressed → ∃ t, exec (.sknpVx x) s = .next t ∧ WritesOnlyPc s t ∧ t.pc.toNat = (s.pc.toNat + 4) % 65536) ∧
    (pressed → ∃ t, exec (.sknpVx x) s = .next t ∧ WritesOnlyPc s t ∧ t.pc.toNat = (s.pc.toNat + 2) % 65536)

/-- `LD Vx,DT`, `LD DT,Vx`, `LD ST,Vx` (46_timer_io.md R182 to R184): the transfer, before the step's timer update;
`timer_stamp` is not touched. -/
def Obligations.TimerTransfers : Prop :=
  ∀ (s : State) (x : Reg),
    (∃ t, exec (.ldVxDt x) s = .next t ∧ t.reg x = s.dt ∧ WritesOnlyRegs [x] s t) ∧
    (∃ t, exec (.ldDtVx x) s = .next t ∧ t.dt = s.reg x ∧ t.st = s.st ∧ t.timerStamp = s.timerStamp ∧
      Advances s t ∧ SameRegsBut [] s t ∧ t.index = s.index ∧ SameMemory s t ∧
      SameStack s t ∧ SameDisplay s t ∧ SameRunState s t ∧ SameInputs s t) ∧
    (∃ t, exec (.ldStVx x) s = .next t ∧ t.st = s.reg x ∧ t.dt = s.dt ∧ t.timerStamp = s.timerStamp ∧
      Advances s t ∧ SameRegsBut [] s t ∧ t.index = s.index ∧ SameMemory s t ∧
      SameStack s t ∧ SameDisplay s t ∧ SameRunState s t ∧ SameInputs s t)

/-- `LD Vx,K` (46_timer_io.md R185): with a key reported, `V[x]` takes its index and the instruction completes; with none,
no state changes. -/
def Obligations.LdVxKTakesTheReportedKey : Prop :=
  ∀ (s : State) (x : Reg),
    (∀ k, s.turn.keyReport = some k → ∃ t, exec (.ldVxK x) s = .next t ∧
      (t.reg x).toNat = k.toNat ∧ WritesOnlyRegs [x] s t) ∧
    (s.turn.keyReport = none → exec (.ldVxK x) s = .next s)

/-! ### Outputs -/

/-- The outputs of 10_state.md R53: `running` and `status` are functions of the state, and `waiting_for_key` is 1 for a
step that stalls, 0 for every other step. A step stalls when the state that the environment's moves leave (R54) runs, no
halt is requested, the fetch succeeds, its word is an `LD Vx,K` and no key is reported (40_engine.md R100, R109). The
output `pc` is the field itself. -/
def Obligations.OutputsShowStateAndStall : Prop :=
  ∀ s : State,
    (s.running = true ↔ s.runState = .running) ∧
    (∀ c code, (c, code) ∈ [(Status.ok, 0), (.unhandled, 1), (.haltRequested, 2), (.stackOverflow, 3),
      (.stackUnderflow, 4), (.addressOutOfRange, 5), (.fontWrite, 6)] → s.status = c → s.statusOut.toNat = code) ∧
    (s.waitingForKey = true ↔
      let u := s.envMoves
      u.runState = .running ∧ u.turn.haltRequest = false ∧ u.pc.toNat < 0xFFF ∧ u.turn.keyReport = none ∧
        ∃ x, decode u.wordAtPc = .ok (.ldVxK x))
end

