-- ==== Sys2Proof/Laws/Decode.lean ====
section
/-! SUPPORT. The decoder and the encoder, one lemma per shared form: what each format's word is under a row's mask, what
the field extraction reads from it, and that a word has at most one row. -/

namespace Sys2Proof

/-! ### Slices of concatenated fields -/

theorem and_ones4 (a : BitVec 4) : a &&& 15#4 = a := BitVec.and_allOnes

theorem and_ones8 (a : BitVec 8) : a &&& 255#8 = a := BitVec.and_allOnes

theorem slice_of_left {m n : Nat} (a : BitVec m) (b : BitVec n) {start len : Nat} (h : n ≤ start) :
    (a ++ b).extractLsb' start len = a.extractLsb' (start - n) len := by
  apply BitVec.eq_of_getLsbD_eq
  intro i hi
  have h₁ : ¬ start + i < n := by omega
  have h₂ : start + i - n = start - n + i := by omega
  simp [BitVec.getLsbD_append, h₁, h₂]

theorem slice_of_right {m n : Nat} (a : BitVec m) (b : BitVec n) {start len : Nat} (h : start + len ≤ n) :
    (a ++ b).extractLsb' start len = b.extractLsb' start len := by
  apply BitVec.eq_of_getLsbD_eq
  intro i hi
  have h₁ : start + i < n := by omega
  simp [BitVec.getLsbD_append, h₁]

theorem slice_whole {n : Nat} (a : BitVec n) : a.extractLsb' 0 n = a := BitVec.extractLsb'_eq_self

/-! ### The formats under the masks -/

theorem formA_masked (op : BitVec 4) (nnn : BitVec 12) : formA op nnn &&& (0xF000 : Word) = op ++ 0x000#12 := by
  rw [formA, show (0xF000 : Word) = 0xF#4 ++ 0x000#12 from rfl, BitVec.and_append]
  simp [and_ones4]

theorem formXK_masked_op (op : BitVec 4) (x : Reg) (kk : Byte) :
    formXK op x kk &&& (0xF000 : Word) = op ++ 0x0#4 ++ 0x00#8 := by
  rw [formXK, show (0xF000 : Word) = 0xF#4 ++ 0x0#4 ++ 0x00#8 from rfl, BitVec.and_append, BitVec.and_append]
  simp [and_ones4]

theorem formXK_masked_op_kk (op : BitVec 4) (x : Reg) (kk : Byte) :
    formXK op x kk &&& (0xF0FF : Word) = op ++ 0x0#4 ++ kk := by
  rw [formXK, show (0xF0FF : Word) = 0xF#4 ++ 0x0#4 ++ 0xFF#8 from rfl, BitVec.and_append, BitVec.and_append]
  simp [and_ones4, and_ones8]

theorem formXY_masked_op_n (op : BitVec 4) (x y : Reg) (c : BitVec 4) :
    formXY op x y c &&& (0xF00F : Word) = op ++ 0x0#4 ++ 0x0#4 ++ c := by
  rw [formXY, show (0xF00F : Word) = 0xF#4 ++ 0x0#4 ++ 0x0#4 ++ 0xF#4 from rfl, BitVec.and_append, BitVec.and_append,
    BitVec.and_append]
  simp [and_ones4]

theorem formXY_masked_op (op : BitVec 4) (x y : Reg) (c : BitVec 4) :
    formXY op x y c &&& (0xF000 : Word) = op ++ 0x0#4 ++ 0x0#4 ++ 0x0#4 := by
  rw [formXY, show (0xF000 : Word) = 0xF#4 ++ 0x0#4 ++ 0x0#4 ++ 0x0#4 from rfl, BitVec.and_append, BitVec.and_append,
    BitVec.and_append]
  simp [and_ones4]

/-! ### The fields of the formats -/

@[simp] theorem fieldsOf_formA_nnn (op : BitVec 4) (nnn : BitVec 12) : (fieldsOf (formA op nnn)).nnn = nnn := by
  simp only [fieldsOf, formA]
  rw [slice_of_right _ _ (by decide), slice_whole]

@[simp] theorem fieldsOf_formXK_x (op : BitVec 4) (x : Reg) (kk : Byte) : (fieldsOf (formXK op x kk)).x = x := by
  simp only [fieldsOf, formXK]
  rw [slice_of_left _ _ (by decide), slice_of_right _ _ (by decide), slice_whole, Reg.bits]

@[simp] theorem fieldsOf_formXK_kk (op : BitVec 4) (x : Reg) (kk : Byte) : (fieldsOf (formXK op x kk)).kk = kk := by
  simp only [fieldsOf, formXK]
  rw [slice_of_right _ _ (by decide), slice_whole]

@[simp] theorem fieldsOf_formXY_x (op : BitVec 4) (x y : Reg) (c : BitVec 4) : (fieldsOf (formXY op x y c)).x = x := by
  simp only [fieldsOf, formXY]
  rw [slice_of_left _ _ (by decide), slice_of_left _ _ (by decide), slice_of_right _ _ (by decide), slice_whole,
    Reg.bits]

@[simp] theorem fieldsOf_formXY_y (op : BitVec 4) (x y : Reg) (c : BitVec 4) : (fieldsOf (formXY op x y c)).y = y := by
  simp only [fieldsOf, formXY]
  rw [slice_of_left _ _ (by decide), slice_of_right _ _ (by decide), slice_whole, Reg.bits]

@[simp] theorem fieldsOf_formXY_n (op : BitVec 4) (x y : Reg) (c : BitVec 4) : (fieldsOf (formXY op x y c)).n = c := by
  simp only [fieldsOf, formXY]
  rw [slice_of_right _ _ (by decide), slice_whole]

/-! ### The dispatch table -/

theorem mem_dispatchOrder (f : Family) : f ∈ dispatchOrder := by cases f <;> decide

theorem mem_dispatchTable (f : Family) : f.row ∈ dispatchTable := List.mem_map_of_mem (mem_dispatchOrder f)

theorem row_family (f : Family) : f.row.family = f := by cases f <;> rfl

theorem rows_disjoint : dispatchTable.Pairwise (fun a b => a.disjoint b = true) := by decide

/-- A word that two rows accept shows that the rows are not disjoint. -/
theorem Row.disjoint_of_accepts {a b : Row} {w : Word} (ha : a.accepts w) (hb : b.accepts w) : a.disjoint b = false := by
  simp only [Row.accepts, beq_iff_eq] at ha hb
  simp only [Row.disjoint, bne_eq_false_iff_eq, ← ha, ← hb]
  rw [BitVec.and_assoc, BitVec.and_assoc, BitVec.and_comm a.mask]

/-- In a table of pairwise disjoint rows, a row that accepts the word is the one that dispatch selects, wherever it
stands. -/
theorem dispatchIn_eq_of_accepts {table : List Row} (hd : table.Pairwise (fun a b => a.disjoint b = true))
    {r : Row} (hr : r ∈ table) {w : Word} (hw : r.accepts w) : dispatchIn table w = some r.family := by
  induction table with
  | nil => cases hr
  | cons a rest ih =>
    rw [List.pairwise_cons] at hd
    by_cases ha : a.accepts w
    · have : r = a := by
        rcases List.mem_cons.1 hr with h | h
        · exact h
        · have := hd.1 r h
          rw [Row.disjoint_of_accepts ha hw] at this
          cases this
      simp [dispatchIn, ha, this]
    · have hne : r ≠ a := by rintro rfl; exact ha hw
      have hr' : r ∈ rest := (List.mem_cons.1 hr).resolve_left hne
      simpa [dispatchIn, ha] using ih hd.2 hr'

/-- Dispatch selects a family exactly when that family's row accepts the word. -/
theorem dispatch_iff (w : Word) (f : Family) : dispatchIn dispatchTable w = some f ↔ f.row.accepts w = true := by
  constructor
  · intro h
    simp only [dispatchIn, Option.map_eq_some_iff] at h
    obtain ⟨r, hr, rfl⟩ := h
    have hacc := List.find?_some hr
    obtain ⟨g, -, rfl⟩ := List.mem_map.1 (List.mem_of_find?_eq_some hr)
    rwa [row_family]
  · intro h
    rw [dispatchIn_eq_of_accepts rows_disjoint (mem_dispatchTable f) h, row_family]

/-- What decoding a word gives: the instruction of the family whose row accepts it, or a rejection that no row does. -/
theorem decode_eq_of_accepts {w : Word} {f : Family} (h : f.row.accepts w = true) :
    decode w = .ok (f.instr (fieldsOf w)) := by
  simp [decode, (dispatch_iff w f).2 h]

theorem decode_cases (w : Word) :
    (∃ f : Family, f.row.accepts w = true ∧ decode w = .ok (f.instr (fieldsOf w))) ∨
    ((∀ f : Family, f.row.accepts w = false) ∧ decode w = .error (.unhandled w)) := by
  cases h : dispatchIn dispatchTable w with
  | some f => exact .inl ⟨f, (dispatch_iff w f).1 h, by simp [decode, h]⟩
  | none =>
    refine .inr ⟨fun f => ?_, by simp [decode, h]⟩
    rw [Bool.eq_false_iff]
    intro hf
    rw [(dispatch_iff w f).2 hf] at h
    cases h

end Sys2Proof
end

