-- ==== Sys2Proof/Laws/Memory.lean ====
section
/-! SUPPORT. The laws of memory: what a read sees after a write, a block of writes and the load of an image; and that
every operation keeps the canonical form. -/

namespace Sys2Proof.Machine.Memory

/-- Outside the font table memory is zero at reset (10_state.md R40). -/
theorem initialByte_eq_zero {a : Nat} (h : 80 ≤ a) : initialByte a = 0 := by
  simp [initialByte, List.getD_eq_getElem?_getD, List.getElem?_eq_none (show fontTable.length ≤ a by simpa [fontTable] using h)]

/-! ### Reads -/

theorem read_of_unlisted {m : List Host.Cell} {a : Nat} (h : ∀ c ∈ m, c.1 ≠ a) : read m a = initialByte a := by
  induction m with
  | nil => rfl
  | cons c m ih =>
    obtain ⟨k, b⟩ := c
    have hk : k ≠ a := h (k, b) (by simp)
    simp only [read, hk, if_false]
    exact ih fun c hc => h c (by simp [hc])

theorem read_append_left {m n : List Host.Cell} {a : Nat} (h : ∀ c ∈ n, c.1 ≠ a) : read (m ++ n) a = read m a := by
  induction m with
  | nil => simpa [read] using read_of_unlisted h
  | cons c m ih => simp [read, ih]

theorem read_append_right {m n : List Host.Cell} {a : Nat} (h : ∀ c ∈ m, c.1 ≠ a) : read (m ++ n) a = read n a := by
  induction m with
  | nil => rfl
  | cons c m ih =>
    obtain ⟨k, b⟩ := c
    have hk : k ≠ a := h (k, b) (by simp)
    simp only [List.cons_append, read, hk, if_false]
    exact ih fun c hc => h c (by simp [hc])

theorem read_filter (m : List Host.Cell) (p : Nat → Bool) {a : Nat} (h : p a = true) :
    read (m.filter fun c => p c.1) a = read m a := by
  induction m with
  | nil => rfl
  | cons c m ih =>
    obtain ⟨k, b⟩ := c
    by_cases hp : p k = true
    · simp [hp, read, ih]
    · have hk : k ≠ a := by rintro rfl; exact hp h
      simp [hp, read, ih, hk]

/-- A read after a write: the value written at its address, the old byte everywhere else. -/
theorem read_write (m : List Host.Cell) (a : Nat) (v : Byte) (b : Nat) :
    read (write m a v) b = if b = a then v else read m b := by
  rcases Nat.lt_trichotomy b a with hb | rfl | hb
  · rw [if_neg (by omega), write, List.append_assoc, read_append_left, read_filter m (fun k => decide (k < a)) (by simpa)]
    intro c hc
    simp only [List.mem_append, List.mem_filter, decide_eq_true_eq] at hc
    rcases hc with hc | hc
    · split at hc <;> simp at hc
      simp [hc]; omega
    · omega
  · rw [if_pos rfl, write, List.append_assoc, read_append_right (by simp; omega), read_append_left (by simp; omega)]
    split
    · simp_all [read]
    · simp [read]
  · rw [if_neg (by omega), write, read_append_right, read_filter m (fun k => decide (a < k)) (by simpa)]
    intro c hc
    simp only [List.mem_append, List.mem_filter, decide_eq_true_eq] at hc
    rcases hc with hc | hc
    · omega
    · split at hc <;> simp at hc
      simp [hc]; omega

/-- A read after a block of writes: the byte written there, or the old byte outside the block. -/
theorem read_writeBytes (bs : List Byte) (m : List Host.Cell) (a b : Nat) :
    read (writeBytes m a bs) b = if h : a ≤ b ∧ b < a + bs.length then bs[b - a] else read m b := by
  induction bs generalizing m a with
  | nil =>
    rw [dif_neg (by simp)]; rfl
  | cons v bs ih =>
    rw [writeBytes, ih, read_write]
    by_cases h₁ : b = a
    · subst h₁; simp
    · by_cases h₂ : a + 1 ≤ b ∧ b < a + 1 + bs.length
      · have h₃ : b - a = b - (a + 1) + 1 := by omega
        rw [dif_pos h₂, dif_pos (by simp; omega)]
        simp [h₃]
      · rw [dif_neg h₂, dif_neg (by simp; omega), if_neg h₁]

theorem cellsOf_bounds {a : Nat} {bs : List Byte} {c : Host.Cell} (h : c ∈ cellsOf a bs) :
    a ≤ c.1 ∧ c.1 < a + bs.length ∧ c.2 ≠ initialByte c.1 := by
  induction bs generalizing a with
  | nil => simp [cellsOf] at h
  | cons b bs ih =>
    rw [cellsOf] at h
    split at h
    · have := ih h; exact ⟨by omega, by simp; omega, this.2.2⟩
    · rcases List.mem_cons.1 h with rfl | h
      · simpa
      · have := ih h; exact ⟨by omega, by simp; omega, this.2.2⟩

theorem read_cellsOf (a : Nat) (bs : List Byte) (b : Nat) :
    read (cellsOf a bs) b = if h : a ≤ b ∧ b < a + bs.length then bs[b - a] else initialByte b := by
  induction bs generalizing a with
  | nil => rw [dif_neg (by simp)]; rfl
  | cons v bs ih =>
    have key : read (cellsOf a (v :: bs)) b = if b = a then v else read (cellsOf (a + 1) bs) b := by
      rw [cellsOf]
      split
      · rename_i hv
        split
        · rename_i h; subst h
          rw [hv]
          exact read_of_unlisted fun c hc => by have := cellsOf_bounds hc; omega
        · rfl
      · simp [read, eq_comm]
    rw [key, ih]
    by_cases h₁ : b = a
    · subst h₁; simp
    · by_cases h₂ : a + 1 ≤ b ∧ b < a + 1 + bs.length
      · have h₃ : b - a = b - (a + 1) + 1 := by omega
        rw [if_neg h₁, dif_pos h₂, dif_pos (by simp; omega)]
        simp [h₃]
      · rw [if_neg h₁, dif_neg h₂, dif_neg (by simp; omega)]

/-- A read after the load of an image: below 0x200 the old byte, then the image, then zeros (10_state.md R43). -/
theorem read_loadImage (m : List Host.Cell) (image : List Byte) (a : Nat) :
    read (loadImage m image) a =
      if a < 0x200 then read m a
      else if a < 0x200 + 3584 then image.getD (a - 0x200) 0 else 0 := by
  rw [loadImage]
  by_cases h : a < 0x200
  · rw [if_pos h, read_append_left, read_filter m (fun k => decide (k < 0x200)) (by simpa)]
    intro c hc
    have := (cellsOf_bounds hc).1
    simp at this; omega
  · rw [if_neg h, read_append_right (by simp; omega), read_cellsOf]
    simp only [Config.programBase, Config.programMemorySize, List.length_take, List.getElem_take]
    by_cases h₁ : a < 0x200 + image.length
    · by_cases h₂ : a < 0x200 + 3584
      · rw [dif_pos (by omega), if_pos h₂, List.getD_eq_getElem?_getD, List.getElem?_eq_getElem (by omega)]
        rfl
      · rw [dif_neg (by omega), if_neg h₂, initialByte_eq_zero (by omega)]
    · rw [dif_neg (by omega), initialByte_eq_zero (by omega), List.getD_eq_getElem?_getD,
        List.getElem?_eq_none (by omega)]
      simp

/-! ### The canonical form -/

/-- The canonical form, spelled out: strictly rising addresses, each of the memory, none at its reset contents. -/
theorem wf_iff (m : List Host.Cell) :
    wf m = true ↔ m.Pairwise (fun c d => c.1 < d.1) ∧ ∀ c ∈ m, c.1 < 4096 ∧ c.2 ≠ initialByte c.1 := by
  induction m with
  | nil => simp [wf]
  | cons c m ih =>
    obtain ⟨k, b⟩ := c
    simp only [wf, Bool.and_eq_true, decide_eq_true_eq, bne_iff_ne, List.all_eq_true, ih, List.pairwise_cons,
      List.forall_mem_cons, Config.memSize]
    tauto

theorem wf_write {m : List Host.Cell} (h : wf m = true) {a : Nat} (ha : a < 4096) (v : Byte) :
    wf (write m a v) = true := by
  rw [wf_iff] at h ⊢
  obtain ⟨hs, hc⟩ := h
  refine ⟨?_, fun c hm => ?_⟩
  · rw [write, List.append_assoc, List.pairwise_append, List.pairwise_append]
    refine ⟨hs.filter _, ⟨?_, hs.filter _, ?_⟩, ?_⟩
    · split <;> simp
    · intro c h₁ d h₂
      simp only [List.mem_filter, decide_eq_true_eq] at h₂
      split at h₁ <;> simp at h₁
      simp [h₁, h₂.2]
    · intro c h₁ d h₂
      simp only [List.mem_filter, List.mem_append, decide_eq_true_eq] at h₁ h₂
      rcases h₂ with h₂ | h₂
      · split at h₂ <;> simp at h₂
        simp [h₁.2, h₂]
      · omega
  · simp only [write, List.mem_append, List.mem_filter] at hm
    rcases hm with (hm | hm) | hm
    · exact hc c hm.1
    · split at hm <;> simp at hm
      subst hm
      exact ⟨ha, ‹_›⟩
    · exact hc c hm.1

theorem wf_writeBytes {m : List Host.Cell} (h : wf m = true) {a : Nat} {bs : List Byte} (ha : a + bs.length ≤ 4096) :
    wf (writeBytes m a bs) = true := by
  induction bs generalizing m a with
  | nil => exact h
  | cons b bs ih =>
    simp only [List.length_cons] at ha
    exact ih (wf_write h (by omega) b) (by omega)

theorem cellsOf_pairwise (a : Nat) (bs : List Byte) : (cellsOf a bs).Pairwise (fun c d => c.1 < d.1) := by
  induction bs generalizing a with
  | nil => simp [cellsOf]
  | cons b bs ih =>
    rw [cellsOf]
    split
    · exact ih _
    · exact List.pairwise_cons.2 ⟨fun c hc => by have := cellsOf_bounds hc; omega, ih _⟩

theorem wf_loadImage {m : List Host.Cell} (h : wf m = true) (image : List Byte) : wf (loadImage m image) = true := by
  rw [wf_iff] at h ⊢
  obtain ⟨hs, hc⟩ := h
  refine ⟨List.pairwise_append.2 ⟨hs.filter _, cellsOf_pairwise _ _, fun c h₁ d h₂ => ?_⟩, fun c hm => ?_⟩
  · have := (cellsOf_bounds h₂).1
    simp at h₁ this; omega
  · rcases List.mem_append.1 hm with hm | hm
    · exact hc c (List.mem_filter.1 hm).1
    · have := cellsOf_bounds hm
      simp at this
      exact ⟨by omega, this.2.2⟩

end Sys2Proof.Machine.Memory
end

