-- ==== Sys2Proof/Laws/State.lean ====
section
/-! SUPPORT. One lemma per field and update of the state, so that no proof unfolds a record update; then what the
accessors read after each update. -/

namespace Sys2Proof.Machine

variable (s : State)

/-! ### setReg -/

@[simp] theorem State.setReg_v (r : Reg) (b : Byte) : (s.setReg r b).v = s.v.set r.val b := rfl
@[simp] theorem State.setReg_index (r : Reg) (b : Byte) : (s.setReg r b).index = s.index := rfl
@[simp] theorem State.setReg_pc (r : Reg) (b : Byte) : (s.setReg r b).pc = s.pc := rfl
@[simp] theorem State.setReg_stack (r : Reg) (b : Byte) : (s.setReg r b).stack = s.stack := rfl
@[simp] theorem State.setReg_sp (r : Reg) (b : Byte) : (s.setReg r b).sp = s.sp := rfl
@[simp] theorem State.setReg_dt (r : Reg) (b : Byte) : (s.setReg r b).dt = s.dt := rfl
@[simp] theorem State.setReg_st (r : Reg) (b : Byte) : (s.setReg r b).st = s.st := rfl
@[simp] theorem State.setReg_keys (r : Reg) (b : Byte) : (s.setReg r b).keys = s.keys := rfl
@[simp] theorem State.setReg_disp (r : Reg) (b : Byte) : (s.setReg r b).disp = s.disp := rfl
@[simp] theorem State.setReg_dirty (r : Reg) (b : Byte) : (s.setReg r b).dirty = s.dirty := rfl
@[simp] theorem State.setReg_mem (r : Reg) (b : Byte) : (s.setReg r b).mem = s.mem := rfl
@[simp] theorem State.setReg_runState (r : Reg) (b : Byte) : (s.setReg r b).runState = s.runState := rfl
@[simp] theorem State.setReg_status (r : Reg) (b : Byte) : (s.setReg r b).status = s.status := rfl
@[simp] theorem State.setReg_timerStamp (r : Reg) (b : Byte) : (s.setReg r b).timerStamp = s.timerStamp := rfl
@[simp] theorem State.setReg_env (r : Reg) (b : Byte) : (s.setReg r b).env = s.env := rfl

/-! ### setIndex -/

@[simp] theorem State.setIndex_v (w : Word) : (s.setIndex w).v = s.v := rfl
@[simp] theorem State.setIndex_index (w : Word) : (s.setIndex w).index = w := rfl
@[simp] theorem State.setIndex_pc (w : Word) : (s.setIndex w).pc = s.pc := rfl
@[simp] theorem State.setIndex_stack (w : Word) : (s.setIndex w).stack = s.stack := rfl
@[simp] theorem State.setIndex_sp (w : Word) : (s.setIndex w).sp = s.sp := rfl
@[simp] theorem State.setIndex_dt (w : Word) : (s.setIndex w).dt = s.dt := rfl
@[simp] theorem State.setIndex_st (w : Word) : (s.setIndex w).st = s.st := rfl
@[simp] theorem State.setIndex_keys (w : Word) : (s.setIndex w).keys = s.keys := rfl
@[simp] theorem State.setIndex_disp (w : Word) : (s.setIndex w).disp = s.disp := rfl
@[simp] theorem State.setIndex_dirty (w : Word) : (s.setIndex w).dirty = s.dirty := rfl
@[simp] theorem State.setIndex_mem (w : Word) : (s.setIndex w).mem = s.mem := rfl
@[simp] theorem State.setIndex_runState (w : Word) : (s.setIndex w).runState = s.runState := rfl
@[simp] theorem State.setIndex_status (w : Word) : (s.setIndex w).status = s.status := rfl
@[simp] theorem State.setIndex_timerStamp (w : Word) : (s.setIndex w).timerStamp = s.timerStamp := rfl
@[simp] theorem State.setIndex_env (w : Word) : (s.setIndex w).env = s.env := rfl

/-! ### setPc -/

@[simp] theorem State.setPc_v (w : Word) : (s.setPc w).v = s.v := rfl
@[simp] theorem State.setPc_index (w : Word) : (s.setPc w).index = s.index := rfl
@[simp] theorem State.setPc_pc (w : Word) : (s.setPc w).pc = w := rfl
@[simp] theorem State.setPc_stack (w : Word) : (s.setPc w).stack = s.stack := rfl
@[simp] theorem State.setPc_sp (w : Word) : (s.setPc w).sp = s.sp := rfl
@[simp] theorem State.setPc_dt (w : Word) : (s.setPc w).dt = s.dt := rfl
@[simp] theorem State.setPc_st (w : Word) : (s.setPc w).st = s.st := rfl
@[simp] theorem State.setPc_keys (w : Word) : (s.setPc w).keys = s.keys := rfl
@[simp] theorem State.setPc_disp (w : Word) : (s.setPc w).disp = s.disp := rfl
@[simp] theorem State.setPc_dirty (w : Word) : (s.setPc w).dirty = s.dirty := rfl
@[simp] theorem State.setPc_mem (w : Word) : (s.setPc w).mem = s.mem := rfl
@[simp] theorem State.setPc_runState (w : Word) : (s.setPc w).runState = s.runState := rfl
@[simp] theorem State.setPc_status (w : Word) : (s.setPc w).status = s.status := rfl
@[simp] theorem State.setPc_timerStamp (w : Word) : (s.setPc w).timerStamp = s.timerStamp := rfl
@[simp] theorem State.setPc_env (w : Word) : (s.setPc w).env = s.env := rfl

/-! ### advance -/

@[simp] theorem State.advance_v : s.advance.v = s.v := rfl
@[simp] theorem State.advance_index : s.advance.index = s.index := rfl
@[simp] theorem State.advance_pc : s.advance.pc = s.pc + 2 := rfl
@[simp] theorem State.advance_stack : s.advance.stack = s.stack := rfl
@[simp] theorem State.advance_sp : s.advance.sp = s.sp := rfl
@[simp] theorem State.advance_dt : s.advance.dt = s.dt := rfl
@[simp] theorem State.advance_st : s.advance.st = s.st := rfl
@[simp] theorem State.advance_keys : s.advance.keys = s.keys := rfl
@[simp] theorem State.advance_disp : s.advance.disp = s.disp := rfl
@[simp] theorem State.advance_dirty : s.advance.dirty = s.dirty := rfl
@[simp] theorem State.advance_mem : s.advance.mem = s.mem := rfl
@[simp] theorem State.advance_runState : s.advance.runState = s.runState := rfl
@[simp] theorem State.advance_status : s.advance.status = s.status := rfl
@[simp] theorem State.advance_timerStamp : s.advance.timerStamp = s.timerStamp := rfl
@[simp] theorem State.advance_env : s.advance.env = s.env := rfl

/-! ### skipIf -/

@[simp] theorem State.skipIf_v (c : Bool) : (s.skipIf c).v = s.v := rfl
@[simp] theorem State.skipIf_index (c : Bool) : (s.skipIf c).index = s.index := rfl
@[simp] theorem State.skipIf_pc (c : Bool) : (s.skipIf c).pc = if c then s.pc + 4 else s.pc + 2 := rfl
@[simp] theorem State.skipIf_stack (c : Bool) : (s.skipIf c).stack = s.stack := rfl
@[simp] theorem State.skipIf_sp (c : Bool) : (s.skipIf c).sp = s.sp := rfl
@[simp] theorem State.skipIf_dt (c : Bool) : (s.skipIf c).dt = s.dt := rfl
@[simp] theorem State.skipIf_st (c : Bool) : (s.skipIf c).st = s.st := rfl
@[simp] theorem State.skipIf_keys (c : Bool) : (s.skipIf c).keys = s.keys := rfl
@[simp] theorem State.skipIf_disp (c : Bool) : (s.skipIf c).disp = s.disp := rfl
@[simp] theorem State.skipIf_dirty (c : Bool) : (s.skipIf c).dirty = s.dirty := rfl
@[simp] theorem State.skipIf_mem (c : Bool) : (s.skipIf c).mem = s.mem := rfl
@[simp] theorem State.skipIf_runState (c : Bool) : (s.skipIf c).runState = s.runState := rfl
@[simp] theorem State.skipIf_status (c : Bool) : (s.skipIf c).status = s.status := rfl
@[simp] theorem State.skipIf_timerStamp (c : Bool) : (s.skipIf c).timerStamp = s.timerStamp := rfl
@[simp] theorem State.skipIf_env (c : Bool) : (s.skipIf c).env = s.env := rfl

/-! ### setDt -/

@[simp] theorem State.setDt_v (b : Byte) : (s.setDt b).v = s.v := rfl
@[simp] theorem State.setDt_index (b : Byte) : (s.setDt b).index = s.index := rfl
@[simp] theorem State.setDt_pc (b : Byte) : (s.setDt b).pc = s.pc := rfl
@[simp] theorem State.setDt_stack (b : Byte) : (s.setDt b).stack = s.stack := rfl
@[simp] theorem State.setDt_sp (b : Byte) : (s.setDt b).sp = s.sp := rfl
@[simp] theorem State.setDt_dt (b : Byte) : (s.setDt b).dt = b := rfl
@[simp] theorem State.setDt_st (b : Byte) : (s.setDt b).st = s.st := rfl
@[simp] theorem State.setDt_keys (b : Byte) : (s.setDt b).keys = s.keys := rfl
@[simp] theorem State.setDt_disp (b : Byte) : (s.setDt b).disp = s.disp := rfl
@[simp] theorem State.setDt_dirty (b : Byte) : (s.setDt b).dirty = s.dirty := rfl
@[simp] theorem State.setDt_mem (b : Byte) : (s.setDt b).mem = s.mem := rfl
@[simp] theorem State.setDt_runState (b : Byte) : (s.setDt b).runState = s.runState := rfl
@[simp] theorem State.setDt_status (b : Byte) : (s.setDt b).status = s.status := rfl
@[simp] theorem State.setDt_timerStamp (b : Byte) : (s.setDt b).timerStamp = s.timerStamp := rfl
@[simp] theorem State.setDt_env (b : Byte) : (s.setDt b).env = s.env := rfl

/-! ### setSt -/

@[simp] theorem State.setSt_v (b : Byte) : (s.setSt b).v = s.v := rfl
@[simp] theorem State.setSt_index (b : Byte) : (s.setSt b).index = s.index := rfl
@[simp] theorem State.setSt_pc (b : Byte) : (s.setSt b).pc = s.pc := rfl
@[simp] theorem State.setSt_stack (b : Byte) : (s.setSt b).stack = s.stack := rfl
@[simp] theorem State.setSt_sp (b : Byte) : (s.setSt b).sp = s.sp := rfl
@[simp] theorem State.setSt_dt (b : Byte) : (s.setSt b).dt = s.dt := rfl
@[simp] theorem State.setSt_st (b : Byte) : (s.setSt b).st = b := rfl
@[simp] theorem State.setSt_keys (b : Byte) : (s.setSt b).keys = s.keys := rfl
@[simp] theorem State.setSt_disp (b : Byte) : (s.setSt b).disp = s.disp := rfl
@[simp] theorem State.setSt_dirty (b : Byte) : (s.setSt b).dirty = s.dirty := rfl
@[simp] theorem State.setSt_mem (b : Byte) : (s.setSt b).mem = s.mem := rfl
@[simp] theorem State.setSt_runState (b : Byte) : (s.setSt b).runState = s.runState := rfl
@[simp] theorem State.setSt_status (b : Byte) : (s.setSt b).status = s.status := rfl
@[simp] theorem State.setSt_timerStamp (b : Byte) : (s.setSt b).timerStamp = s.timerStamp := rfl
@[simp] theorem State.setSt_env (b : Byte) : (s.setSt b).env = s.env := rfl

/-! ### setDisplay -/

@[simp] theorem State.setDisplay_v (rows : Vector (BitVec 64) 32) (c : Bool) : (s.setDisplay rows c).v = s.v := rfl
@[simp] theorem State.setDisplay_index (rows : Vector (BitVec 64) 32) (c : Bool) : (s.setDisplay rows c).index = s.index := rfl
@[simp] theorem State.setDisplay_pc (rows : Vector (BitVec 64) 32) (c : Bool) : (s.setDisplay rows c).pc = s.pc := rfl
@[simp] theorem State.setDisplay_stack (rows : Vector (BitVec 64) 32) (c : Bool) : (s.setDisplay rows c).stack = s.stack := rfl
@[simp] theorem State.setDisplay_sp (rows : Vector (BitVec 64) 32) (c : Bool) : (s.setDisplay rows c).sp = s.sp := rfl
@[simp] theorem State.setDisplay_dt (rows : Vector (BitVec 64) 32) (c : Bool) : (s.setDisplay rows c).dt = s.dt := rfl
@[simp] theorem State.setDisplay_st (rows : Vector (BitVec 64) 32) (c : Bool) : (s.setDisplay rows c).st = s.st := rfl
@[simp] theorem State.setDisplay_keys (rows : Vector (BitVec 64) 32) (c : Bool) : (s.setDisplay rows c).keys = s.keys := rfl
@[simp] theorem State.setDisplay_disp (rows : Vector (BitVec 64) 32) (c : Bool) : (s.setDisplay rows c).disp = rows := rfl
@[simp] theorem State.setDisplay_dirty (rows : Vector (BitVec 64) 32) (c : Bool) : (s.setDisplay rows c).dirty = (s.dirty || c) := rfl
@[simp] theorem State.setDisplay_mem (rows : Vector (BitVec 64) 32) (c : Bool) : (s.setDisplay rows c).mem = s.mem := rfl
@[simp] theorem State.setDisplay_runState (rows : Vector (BitVec 64) 32) (c : Bool) : (s.setDisplay rows c).runState = s.runState := rfl
@[simp] theorem State.setDisplay_status (rows : Vector (BitVec 64) 32) (c : Bool) : (s.setDisplay rows c).status = s.status := rfl
@[simp] theorem State.setDisplay_timerStamp (rows : Vector (BitVec 64) 32) (c : Bool) : (s.setDisplay rows c).timerStamp = s.timerStamp := rfl
@[simp] theorem State.setDisplay_env (rows : Vector (BitVec 64) 32) (c : Bool) : (s.setDisplay rows c).env = s.env := rfl

/-! ### halt -/

@[simp] theorem State.halt_v (c : Status) : (s.halt c).v = s.v := rfl
@[simp] theorem State.halt_index (c : Status) : (s.halt c).index = s.index := rfl
@[simp] theorem State.halt_pc (c : Status) : (s.halt c).pc = s.pc := rfl
@[simp] theorem State.halt_stack (c : Status) : (s.halt c).stack = s.stack := rfl
@[simp] theorem State.halt_sp (c : Status) : (s.halt c).sp = s.sp := rfl
@[simp] theorem State.halt_dt (c : Status) : (s.halt c).dt = s.dt := rfl
@[simp] theorem State.halt_st (c : Status) : (s.halt c).st = s.st := rfl
@[simp] theorem State.halt_keys (c : Status) : (s.halt c).keys = s.keys := rfl
@[simp] theorem State.halt_disp (c : Status) : (s.halt c).disp = s.disp := rfl
@[simp] theorem State.halt_dirty (c : Status) : (s.halt c).dirty = s.dirty := rfl
@[simp] theorem State.halt_mem (c : Status) : (s.halt c).mem = s.mem := rfl
@[simp] theorem State.halt_runState (c : Status) : (s.halt c).runState = .halted := rfl
@[simp] theorem State.halt_status (c : Status) : (s.halt c).status = c := rfl
@[simp] theorem State.halt_timerStamp (c : Status) : (s.halt c).timerStamp = s.timerStamp := rfl
@[simp] theorem State.halt_env (c : Status) : (s.halt c).env = s.env := rfl

/-! ### timerUpdate -/

@[simp] theorem State.timerUpdate_v (now : Nat) : (s.timerUpdate now).v = s.v := rfl
@[simp] theorem State.timerUpdate_index (now : Nat) : (s.timerUpdate now).index = s.index := rfl
@[simp] theorem State.timerUpdate_pc (now : Nat) : (s.timerUpdate now).pc = s.pc := rfl
@[simp] theorem State.timerUpdate_stack (now : Nat) : (s.timerUpdate now).stack = s.stack := rfl
@[simp] theorem State.timerUpdate_sp (now : Nat) : (s.timerUpdate now).sp = s.sp := rfl
@[simp] theorem State.timerUpdate_dt (now : Nat) : (s.timerUpdate now).dt = if s.tickDue now then countdown s.dt else s.dt := rfl
@[simp] theorem State.timerUpdate_st (now : Nat) : (s.timerUpdate now).st = if s.tickDue now then countdown s.st else s.st := rfl
@[simp] theorem State.timerUpdate_keys (now : Nat) : (s.timerUpdate now).keys = s.keys := rfl
@[simp] theorem State.timerUpdate_disp (now : Nat) : (s.timerUpdate now).disp = s.disp := rfl
@[simp] theorem State.timerUpdate_dirty (now : Nat) : (s.timerUpdate now).dirty = s.dirty := rfl
@[simp] theorem State.timerUpdate_mem (now : Nat) : (s.timerUpdate now).mem = s.mem := rfl
@[simp] theorem State.timerUpdate_runState (now : Nat) : (s.timerUpdate now).runState = s.runState := rfl
@[simp] theorem State.timerUpdate_status (now : Nat) : (s.timerUpdate now).status = s.status := rfl
@[simp] theorem State.timerUpdate_timerStamp (now : Nat) : (s.timerUpdate now).timerStamp = if s.tickDue now then now else s.timerStamp := rfl
@[simp] theorem State.timerUpdate_env (now : Nat) : (s.timerUpdate now).env = s.env := rfl

/-! ### endTurn -/

@[simp] theorem State.endTurn_v : s.endTurn.v = s.v := rfl
@[simp] theorem State.endTurn_index : s.endTurn.index = s.index := rfl
@[simp] theorem State.endTurn_pc : s.endTurn.pc = s.pc := rfl
@[simp] theorem State.endTurn_stack : s.endTurn.stack = s.stack := rfl
@[simp] theorem State.endTurn_sp : s.endTurn.sp = s.sp := rfl
@[simp] theorem State.endTurn_dt : s.endTurn.dt = s.dt := rfl
@[simp] theorem State.endTurn_st : s.endTurn.st = s.st := rfl
@[simp] theorem State.endTurn_keys : s.endTurn.keys = s.keys := rfl
@[simp] theorem State.endTurn_disp : s.endTurn.disp = s.disp := rfl
@[simp] theorem State.endTurn_dirty : s.endTurn.dirty = s.dirty := rfl
@[simp] theorem State.endTurn_mem : s.endTurn.mem = s.mem := rfl
@[simp] theorem State.endTurn_runState : s.endTurn.runState = s.runState := rfl
@[simp] theorem State.endTurn_status : s.endTurn.status = s.status := rfl
@[simp] theorem State.endTurn_timerStamp : s.endTurn.timerStamp = s.timerStamp := rfl
@[simp] theorem State.endTurn_env : s.endTurn.env = { s.env with turns := s.env.turns.tail, drawn := s.env.drawn + 1, now := s.nowInput } := rfl

/-! ### setKey -/

@[simp] theorem State.setKey_v (k : Nat) (p : Bool) : (s.setKey k p).v = s.v := rfl
@[simp] theorem State.setKey_index (k : Nat) (p : Bool) : (s.setKey k p).index = s.index := rfl
@[simp] theorem State.setKey_pc (k : Nat) (p : Bool) : (s.setKey k p).pc = s.pc := rfl
@[simp] theorem State.setKey_stack (k : Nat) (p : Bool) : (s.setKey k p).stack = s.stack := rfl
@[simp] theorem State.setKey_sp (k : Nat) (p : Bool) : (s.setKey k p).sp = s.sp := rfl
@[simp] theorem State.setKey_dt (k : Nat) (p : Bool) : (s.setKey k p).dt = s.dt := rfl
@[simp] theorem State.setKey_st (k : Nat) (p : Bool) : (s.setKey k p).st = s.st := rfl
@[simp] theorem State.setKey_keys (k : Nat) (p : Bool) : (s.setKey k p).keys = if k ≤ 15 then (if p then s.keys ||| BitVec.twoPow 16 k else s.keys &&& ~~~ BitVec.twoPow 16 k) else s.keys := rfl
@[simp] theorem State.setKey_disp (k : Nat) (p : Bool) : (s.setKey k p).disp = s.disp := rfl
@[simp] theorem State.setKey_dirty (k : Nat) (p : Bool) : (s.setKey k p).dirty = s.dirty := rfl
@[simp] theorem State.setKey_mem (k : Nat) (p : Bool) : (s.setKey k p).mem = s.mem := rfl
@[simp] theorem State.setKey_runState (k : Nat) (p : Bool) : (s.setKey k p).runState = s.runState := rfl
@[simp] theorem State.setKey_status (k : Nat) (p : Bool) : (s.setKey k p).status = s.status := rfl
@[simp] theorem State.setKey_timerStamp (k : Nat) (p : Bool) : (s.setKey k p).timerStamp = s.timerStamp := rfl
@[simp] theorem State.setKey_env (k : Nat) (p : Bool) : (s.setKey k p).env = s.env := rfl

/-! ### dirtyClear -/

@[simp] theorem State.dirtyClear_v : s.dirtyClear.v = s.v := rfl
@[simp] theorem State.dirtyClear_index : s.dirtyClear.index = s.index := rfl
@[simp] theorem State.dirtyClear_pc : s.dirtyClear.pc = s.pc := rfl
@[simp] theorem State.dirtyClear_stack : s.dirtyClear.stack = s.stack := rfl
@[simp] theorem State.dirtyClear_sp : s.dirtyClear.sp = s.sp := rfl
@[simp] theorem State.dirtyClear_dt : s.dirtyClear.dt = s.dt := rfl
@[simp] theorem State.dirtyClear_st : s.dirtyClear.st = s.st := rfl
@[simp] theorem State.dirtyClear_keys : s.dirtyClear.keys = s.keys := rfl
@[simp] theorem State.dirtyClear_disp : s.dirtyClear.disp = s.disp := rfl
@[simp] theorem State.dirtyClear_dirty : s.dirtyClear.dirty = false := rfl
@[simp] theorem State.dirtyClear_mem : s.dirtyClear.mem = s.mem := rfl
@[simp] theorem State.dirtyClear_runState : s.dirtyClear.runState = s.runState := rfl
@[simp] theorem State.dirtyClear_status : s.dirtyClear.status = s.status := rfl
@[simp] theorem State.dirtyClear_timerStamp : s.dirtyClear.timerStamp = s.timerStamp := rfl
@[simp] theorem State.dirtyClear_env : s.dirtyClear.env = s.env := rfl

/-! ### loadProgram -/

@[simp] theorem State.loadProgram_v (image : List Byte) : (s.loadProgram image).v = s.v := rfl
@[simp] theorem State.loadProgram_index (image : List Byte) : (s.loadProgram image).index = s.index := rfl
@[simp] theorem State.loadProgram_pc (image : List Byte) : (s.loadProgram image).pc = s.pc := rfl
@[simp] theorem State.loadProgram_stack (image : List Byte) : (s.loadProgram image).stack = s.stack := rfl
@[simp] theorem State.loadProgram_sp (image : List Byte) : (s.loadProgram image).sp = s.sp := rfl
@[simp] theorem State.loadProgram_dt (image : List Byte) : (s.loadProgram image).dt = s.dt := rfl
@[simp] theorem State.loadProgram_st (image : List Byte) : (s.loadProgram image).st = s.st := rfl
@[simp] theorem State.loadProgram_keys (image : List Byte) : (s.loadProgram image).keys = s.keys := rfl
@[simp] theorem State.loadProgram_disp (image : List Byte) : (s.loadProgram image).disp = s.disp := rfl
@[simp] theorem State.loadProgram_dirty (image : List Byte) : (s.loadProgram image).dirty = s.dirty := rfl
@[simp] theorem State.loadProgram_mem (image : List Byte) : (s.loadProgram image).mem = Memory.loadImage s.mem image := rfl
@[simp] theorem State.loadProgram_runState (image : List Byte) : (s.loadProgram image).runState = s.runState := rfl
@[simp] theorem State.loadProgram_status (image : List Byte) : (s.loadProgram image).status = s.status := rfl
@[simp] theorem State.loadProgram_timerStamp (image : List Byte) : (s.loadProgram image).timerStamp = s.timerStamp := rfl
@[simp] theorem State.loadProgram_env (image : List Byte) : (s.loadProgram image).env = s.env := rfl

/-! ### What the accessors read after an update -/

@[simp] theorem State.setReg_peek (r : Reg) (b : Byte) (a : Nat) : (s.setReg r b).peek a = s.peek a := rfl
@[simp] theorem State.setReg_turn (r : Reg) (b : Byte) : (s.setReg r b).turn = s.turn := rfl
@[simp] theorem State.setReg_nowInput (r : Reg) (b : Byte) : (s.setReg r b).nowInput = s.nowInput := rfl
@[simp] theorem State.setIndex_reg (w : Word) (q : Reg) : (s.setIndex w).reg q = s.reg q := rfl
@[simp] theorem State.setIndex_peek (w : Word) (a : Nat) : (s.setIndex w).peek a = s.peek a := rfl
@[simp] theorem State.setIndex_turn (w : Word) : (s.setIndex w).turn = s.turn := rfl
@[simp] theorem State.setIndex_nowInput (w : Word) : (s.setIndex w).nowInput = s.nowInput := rfl
@[simp] theorem State.setPc_reg (w : Word) (q : Reg) : (s.setPc w).reg q = s.reg q := rfl
@[simp] theorem State.setPc_peek (w : Word) (a : Nat) : (s.setPc w).peek a = s.peek a := rfl
@[simp] theorem State.setPc_turn (w : Word) : (s.setPc w).turn = s.turn := rfl
@[simp] theorem State.setPc_nowInput (w : Word) : (s.setPc w).nowInput = s.nowInput := rfl
@[simp] theorem State.advance_reg (q : Reg) : s.advance.reg q = s.reg q := rfl
@[simp] theorem State.advance_peek (a : Nat) : s.advance.peek a = s.peek a := rfl
@[simp] theorem State.advance_turn : s.advance.turn = s.turn := rfl
@[simp] theorem State.advance_nowInput : s.advance.nowInput = s.nowInput := rfl
@[simp] theorem State.skipIf_reg (c : Bool) (q : Reg) : (s.skipIf c).reg q = s.reg q := rfl
@[simp] theorem State.skipIf_peek (c : Bool) (a : Nat) : (s.skipIf c).peek a = s.peek a := rfl
@[simp] theorem State.skipIf_turn (c : Bool) : (s.skipIf c).turn = s.turn := rfl
@[simp] theorem State.skipIf_nowInput (c : Bool) : (s.skipIf c).nowInput = s.nowInput := rfl
@[simp] theorem State.setDt_reg (b : Byte) (q : Reg) : (s.setDt b).reg q = s.reg q := rfl
@[simp] theorem State.setDt_peek (b : Byte) (a : Nat) : (s.setDt b).peek a = s.peek a := rfl
@[simp] theorem State.setDt_turn (b : Byte) : (s.setDt b).turn = s.turn := rfl
@[simp] theorem State.setDt_nowInput (b : Byte) : (s.setDt b).nowInput = s.nowInput := rfl
@[simp] theorem State.setSt_reg (b : Byte) (q : Reg) : (s.setSt b).reg q = s.reg q := rfl
@[simp] theorem State.setSt_peek (b : Byte) (a : Nat) : (s.setSt b).peek a = s.peek a := rfl
@[simp] theorem State.setSt_turn (b : Byte) : (s.setSt b).turn = s.turn := rfl
@[simp] theorem State.setSt_nowInput (b : Byte) : (s.setSt b).nowInput = s.nowInput := rfl
@[simp] theorem State.setDisplay_reg (rows : Vector (BitVec 64) 32) (c : Bool) (q : Reg) : (s.setDisplay rows c).reg q = s.reg q := rfl
@[simp] theorem State.setDisplay_peek (rows : Vector (BitVec 64) 32) (c : Bool) (a : Nat) : (s.setDisplay rows c).peek a = s.peek a := rfl
@[simp] theorem State.setDisplay_turn (rows : Vector (BitVec 64) 32) (c : Bool) : (s.setDisplay rows c).turn = s.turn := rfl
@[simp] theorem State.setDisplay_nowInput (rows : Vector (BitVec 64) 32) (c : Bool) : (s.setDisplay rows c).nowInput = s.nowInput := rfl
@[simp] theorem State.halt_reg (c : Status) (q : Reg) : (s.halt c).reg q = s.reg q := rfl
@[simp] theorem State.halt_peek (c : Status) (a : Nat) : (s.halt c).peek a = s.peek a := rfl
@[simp] theorem State.halt_turn (c : Status) : (s.halt c).turn = s.turn := rfl
@[simp] theorem State.halt_nowInput (c : Status) : (s.halt c).nowInput = s.nowInput := rfl
@[simp] theorem State.timerUpdate_reg (now : Nat) (q : Reg) : (s.timerUpdate now).reg q = s.reg q := rfl
@[simp] theorem State.timerUpdate_peek (now : Nat) (a : Nat) : (s.timerUpdate now).peek a = s.peek a := rfl
@[simp] theorem State.timerUpdate_turn (now : Nat) : (s.timerUpdate now).turn = s.turn := rfl
@[simp] theorem State.timerUpdate_nowInput (now : Nat) : (s.timerUpdate now).nowInput = s.nowInput := rfl
@[simp] theorem State.endTurn_reg (q : Reg) : s.endTurn.reg q = s.reg q := rfl
@[simp] theorem State.endTurn_peek (a : Nat) : s.endTurn.peek a = s.peek a := rfl
@[simp] theorem State.setKey_reg (k : Nat) (p : Bool) (q : Reg) : (s.setKey k p).reg q = s.reg q := rfl
@[simp] theorem State.setKey_peek (k : Nat) (p : Bool) (a : Nat) : (s.setKey k p).peek a = s.peek a := rfl
@[simp] theorem State.setKey_turn (k : Nat) (p : Bool) : (s.setKey k p).turn = s.turn := rfl
@[simp] theorem State.setKey_nowInput (k : Nat) (p : Bool) : (s.setKey k p).nowInput = s.nowInput := rfl
@[simp] theorem State.dirtyClear_reg (q : Reg) : s.dirtyClear.reg q = s.reg q := rfl
@[simp] theorem State.dirtyClear_peek (a : Nat) : s.dirtyClear.peek a = s.peek a := rfl
@[simp] theorem State.dirtyClear_turn : s.dirtyClear.turn = s.turn := rfl
@[simp] theorem State.dirtyClear_nowInput : s.dirtyClear.nowInput = s.nowInput := rfl
@[simp] theorem State.loadProgram_reg (image : List Byte) (q : Reg) : (s.loadProgram image).reg q = s.reg q := rfl
@[simp] theorem State.loadProgram_turn (image : List Byte) : (s.loadProgram image).turn = s.turn := rfl
@[simp] theorem State.loadProgram_nowInput (image : List Byte) : (s.loadProgram image).nowInput = s.nowInput := rfl

theorem State.setReg_reg (r : Reg) (b : Byte) (q : Reg) : (s.setReg r b).reg q = if q = r then b else s.reg q := by
  simp only [State.reg, State.setReg, Vector.getElem_set, Fin.ext_iff, eq_comm]

@[simp] theorem State.setReg_reg_self (r : Reg) (b : Byte) : (s.setReg r b).reg r = b := by simp [State.setReg_reg]

theorem State.setReg_reg_ne {r q : Reg} (b : Byte) (h : q ≠ r) : (s.setReg r b).reg q = s.reg q := by
  simp [State.setReg_reg, h]

/-- The registers after a flag-writing instruction: the flag in `V[15]`, also when the result goes there (44_alu.md
R162). -/
theorem State.setResultThenFlag_reg (x : Reg) (b : Byte) (f : Bool) (q : Reg) :
    (s.setResultThenFlag x b f).reg q = if q = 15 then flagByte f else if q = x then b else s.reg q := by
  simp [State.setResultThenFlag, State.setReg_reg]

end Sys2Proof.Machine
end

