-- ==== Sys2Proof/Laws/Ops.lean ====
section
/-! SUPPORT. One lemma per shared operation, with everything it can do: reads and stores of several bytes, push and pop,
loading registers, a body that may raise, the countdown. -/

namespace Sys2Proof.Machine

variable (s : State)

/-! ### Accesses to memory -/

theorem readsFault_eq_none {a n : Nat} : readsFault a n = none ↔ n = 0 ∨ a + n ≤ 4096 := by
  rw [readsFault]
  split <;> [simp [*]; (split <;> simp <;> omega)]

theorem storesFault_eq_none {a n : Nat} : storesFault a n = none ↔ n = 0 ∨ (a + n ≤ 4096 ∧ 80 ≤ a) := by
  rw [storesFault]
  split <;> [simp [*]; (split <;> [(simp; omega); (split <;> simp <;> omega)])]

/-- Reads of several bytes: no fault, and the bytes in order; or the range fault. -/
theorem State.readBytes_cases (a n : Nat) :
    ((n = 0 ∨ a + n ≤ 4096) ∧ s.readBytes a n = .ok ((List.range n).map fun k => s.peek (a + k))) ∨
    (n ≠ 0 ∧ 4096 < a + n ∧ s.readBytes a n = .error .addressOutOfRange) := by
  cases h : readsFault a n with
  | none => exact .inl ⟨readsFault_eq_none.1 h, by simp [State.readBytes, h]⟩
  | some c =>
    right
    have hn : ¬ (n = 0 ∨ a + n ≤ 4096) := fun h' => by rw [readsFault_eq_none.2 h'] at h; cases h
    have hc : c = .addressOutOfRange := by
      rw [readsFault] at h
      split at h
      · cases h
      · split at h
        · exact (Option.some.inj h).symm
        · cases h
    exact ⟨by omega, by omega, by simp [State.readBytes, h, hc]⟩

/-- Stores of several bytes: the bytes written in order; or the range fault; or the font fault. -/
theorem State.storeBytes_cases (a : Nat) (bs : List Byte) :
    ((bs = [] ∨ (a + bs.length ≤ 4096 ∧ 80 ≤ a)) ∧
      s.storeBytes a bs = .ok { s with mem := Memory.writeBytes s.mem a bs }) ∨
    (bs ≠ [] ∧ 4096 < a + bs.length ∧ s.storeBytes a bs = .error .addressOutOfRange) ∨
    (bs ≠ [] ∧ a + bs.length ≤ 4096 ∧ a < 80 ∧ s.storeBytes a bs = .error .fontWrite) := by
  have hlen : bs.length = 0 ↔ bs = [] := List.length_eq_zero_iff
  by_cases h₀ : bs = []
  · exact .inl ⟨.inl h₀, by simp [State.storeBytes, storesFault, h₀]⟩
  have h₁ : bs.length ≠ 0 := fun h => h₀ (hlen.1 h)
  by_cases h₂ : 4096 < a + bs.length
  · refine .inr (.inl ⟨h₀, h₂, ?_⟩)
    simp [State.storeBytes, storesFault, h₀, show 4095 < a + (bs.length - 1) by omega]
  by_cases h₃ : a < 80
  · refine .inr (.inr ⟨h₀, by omega, h₃, ?_⟩)
    simp [State.storeBytes, storesFault, h₀, show ¬ 4095 < a + (bs.length - 1) by omega, show a ≤ 79 by omega]
  · refine .inl ⟨.inr ⟨by omega, by omega⟩, ?_⟩
    simp [State.storeBytes, storesFault, h₀, show ¬ 4095 < a + (bs.length - 1) by omega, show ¬ a ≤ 79 by omega]

/-- What a read sees after stores of several bytes. -/
theorem State.peek_writeBytes (a : Nat) (bs : List Byte) (b : Nat) :
    State.peek { s with mem := Memory.writeBytes s.mem a bs } b =
      if h : a ≤ b ∧ b < a + bs.length then bs[b - a] else s.peek b :=
  Memory.read_writeBytes bs s.mem a b

/-- Inside the stored bytes a read sees the byte stored there. -/
theorem State.peek_writeBytes_inside (a : Nat) (bs : List Byte) (k : Nat) (h : k < bs.length) :
    State.peek { s with mem := Memory.writeBytes s.mem a bs } (a + k) = bs[k] := by
  rw [State.peek_writeBytes, dif_pos (by omega)]
  simp

/-- Outside the stored bytes a read sees what it saw before. -/
theorem State.peek_writeBytes_outside (a : Nat) (bs : List Byte) (b : Nat) (h : b < a ∨ a + bs.length ≤ b) :
    State.peek { s with mem := Memory.writeBytes s.mem a bs } b = s.peek b := by
  rw [State.peek_writeBytes, dif_neg (by omega)]

/-! ### The stack -/

/-- A push, or overflow on a full stack. -/
theorem State.push_cases (w : Word) :
    (∃ h : s.sp.val < 16,
      s.push w = .ok { s with stack := s.stack.set s.sp.val w, sp := ⟨s.sp.val + 1, by omega⟩ }) ∨
    (s.sp.val = 16 ∧ s.push w = .error .stackOverflow) := by
  by_cases h : s.sp.val < 16
  · exact .inl ⟨h, by simp [State.push, h]⟩
  · exact .inr ⟨by omega, by simp [State.push, h]⟩

/-- A pop, or underflow on an empty stack. -/
theorem State.pop_cases :
    (s.sp.val ≠ 0 ∧
      s.pop = .ok (s.stack[s.sp.val - 1], { s with sp := ⟨s.sp.val - 1, by omega⟩ })) ∨
    (s.sp.val = 0 ∧ s.pop = .error .stackUnderflow) := by
  by_cases h : s.sp.val = 0
  · exact .inr ⟨h, by simp [State.pop, h]⟩
  · exact .inl ⟨h, by simp [State.pop, h]⟩

/-! ### Several registers -/

/-- Loading registers changes the registers only. -/
theorem State.loadRegs_eq (k : Nat) (bs : List Byte) : s.loadRegs k bs = { s with v := (s.loadRegs k bs).v } := by
  induction bs generalizing s k with
  | nil => rfl
  | cons b bs ih => rw [State.loadRegs, ih]; rfl

/-- The registers after loading: the bytes in order from `V[k]` on. -/
theorem State.loadRegs_reg (k : Nat) (bs : List Byte) (h : k + bs.length ≤ 16) (r : Reg) :
    (s.loadRegs k bs).reg r =
      if h : k ≤ r.val ∧ r.val < k + bs.length then bs[r.val - k] else s.reg r := by
  induction bs generalizing s k with
  | nil => rw [dif_neg (by simp)]; rfl
  | cons b bs ih =>
    simp only [List.length_cons] at h
    have hk : (Fin.ofNat 16 k).val = k := Nat.mod_eq_of_lt (by omega)
    rw [State.loadRegs, ih _ _ (by omega), State.setReg_reg]
    by_cases h₁ : r.val = k
    · rw [dif_neg (by omega), if_pos (Fin.ext (by omega)), dif_pos (by simp; omega)]
      simp [h₁]
    · by_cases h₂ : k + 1 ≤ r.val ∧ r.val < k + 1 + bs.length
      · have h₃ : r.val - k = r.val - (k + 1) + 1 := by omega
        rw [dif_pos h₂, dif_pos (by simp; omega)]
        simp [h₃]
      · rw [dif_neg h₂, if_neg (fun e => h₁ (by rw [e, hk])), dif_neg (by simp; omega)]

theorem State.regsUpTo_length (x : Reg) : (s.regsUpTo x).length = x.val + 1 := by
  simp [State.regsUpTo]

theorem State.regsUpTo_getElem (x : Reg) (k : Nat) (h : k < (s.regsUpTo x).length) :
    (s.regsUpTo x)[k] = s.reg ⟨k, by have := s.regsUpTo_length x; omega⟩ := by
  simp [State.regsUpTo, State.reg]

/-! ### Time -/

/-- A countdown loses at most one, and stays at 0 (60_exceptions.md R202). -/
theorem countdown_toNat (b : Byte) : (countdown b).toNat = b.toNat - 1 := by
  unfold countdown
  split
  · simp [*]
  · have h₀ : b.toNat ≠ 0 := fun h => ‹¬ b = 0› (BitVec.eq_of_toNat_eq h)
    rw [BitVec.toNat_sub]
    have := b.isLt
    simp; omega

/-- The environment's turn is over: only its side changes. -/
theorem State.endTurn_eq : s.endTurn = { s with env := s.endTurn.env } := rfl

end Sys2Proof.Machine
end

