-- ==== Sys2Proof/Laws/Exec.lean ====
section
/-! SUPPORT. What `exec` can do, said once: an instruction either halts the machine with a code that is not OK and changes
nothing else, or it has the effect that `Completed` writes out for it. -/

namespace Sys2Proof.Machine

/-- The effect of an instruction that raises no terminal condition, as a record of the state before it. The instructions
that can raise none, and read no key, are what `exec` says. -/
def Completed (i : Instr) (s t : State) : Prop :=
  match i with
  | .ret => ∃ h : s.sp.val ≠ 0,
      t = { s with sp := ⟨s.sp.val - 1, by omega⟩, pc := s.stack[s.sp.val - 1] }
  | .callAddr nnn => ∃ h : s.sp.val < 16,
      t = { s with
            stack := s.stack.set s.sp.val (s.pc + 2), sp := ⟨s.sp.val + 1, by omega⟩, pc := addrWord nnn }
  | .drwVxVyN x y n =>
      (n.toNat = 0 ∨ s.index.toNat + n.toNat ≤ 4096) ∧ ∃ d : Drawing,
      d = Drawing.plot ⟨s.disp, false, false⟩ ((s.reg x).toNat % 64) ((s.reg y).toNat % 32)
        ((List.range n.toNat).map fun k => s.peek (s.dataAddr 0 + k)) ∧
      t = ((s.setDisplay d.rows d.changed).setReg 15 (flagByte d.collision)).advance
  | .ldVxMem x =>
      s.index.toNat + x.val < 4096 ∧
      t = (s.loadRegs 0 ((List.range (x.val + 1)).map fun k => s.peek (s.dataAddr 0 + k))).advance
  | .ldBVx x =>
      80 ≤ s.index.toNat ∧ s.index.toNat + 3 ≤ 4096 ∧
      t = { s with mem := Memory.writeBytes s.mem (s.dataAddr 0) (decimalDigits (s.reg x)), pc := s.pc + 2 }
  | .ldMemVx x =>
      80 ≤ s.index.toNat ∧ s.index.toNat + (x.val + 1) ≤ 4096 ∧
      t = { s with mem := Memory.writeBytes s.mem (s.dataAddr 0) (s.regsUpTo x), pc := s.pc + 2 }
  | .ldVxK x =>
      (s.turn.keyReport = none ∧ t = s) ∨
      ∃ k, s.turn.keyReport = some k ∧ t = (s.setReg x (k.setWidth 8)).advance
  | i => exec i s = .next t

/-- An instruction halts the machine and changes nothing else (60_exceptions.md R198), or it completes. -/
theorem exec_cases {i : Instr} {s t : State} (h : exec i s = .next t) :
    (∃ c, c ≠ .ok ∧ t = s.halt c) ∨ Completed i s t := by
  cases i
  case ldVxK x =>
    right
    cases h
    cases hk : s.turn.keyReport with
    | none => exact .inl ⟨hk, rfl⟩
    | some k => exact .inr ⟨k, hk, rfl⟩
  case ret =>
    cases h
    rcases s.pop_cases with ⟨h, e⟩ | ⟨-, e⟩ <;> rw [e]
    · exact .inr ⟨h, rfl⟩
    · exact .inl ⟨_, by decide, rfl⟩
  case callAddr nnn =>
    cases h
    rcases s.push_cases (s.pc + 2) with ⟨h, e⟩ | ⟨-, e⟩ <;> rw [e]
    · exact .inr ⟨h, rfl⟩
    · exact .inl ⟨_, by decide, rfl⟩
  case drwVxVyN x y n =>
    cases h
    rcases s.readBytes_cases (s.dataAddr 0) n.toNat with ⟨h, e⟩ | ⟨-, -, e⟩ <;> rw [e]
    · exact .inr ⟨h, _, rfl, rfl⟩
    · exact .inl ⟨_, by decide, rfl⟩
  case ldVxMem x =>
    cases h
    rcases s.readBytes_cases (s.dataAddr 0) (x.val + 1) with ⟨h, e⟩ | ⟨-, -, e⟩ <;> rw [e]
    · have h := h.resolve_left (by omega)
      exact .inr ⟨by simp only [State.dataAddr] at h; omega, rfl⟩
    · exact .inl ⟨_, by decide, rfl⟩
  case ldBVx x =>
    cases h
    rcases s.storeBytes_cases (s.dataAddr 0) (decimalDigits (s.reg x)) with
      ⟨h, e⟩ | ⟨-, -, e⟩ | ⟨-, -, -, e⟩ <;> rw [e]
    · have h := h.resolve_left nofun
      exact .inr ⟨h.2, h.1, rfl⟩
    · exact .inl ⟨_, by decide, rfl⟩
    · exact .inl ⟨_, by decide, rfl⟩
  case ldMemVx x =>
    cases h
    have hl := s.regsUpTo_length x
    rcases s.storeBytes_cases (s.dataAddr 0) (s.regsUpTo x) with ⟨h, e⟩ | ⟨-, -, e⟩ | ⟨-, -, -, e⟩ <;> rw [e]
    · have h := h.resolve_left fun h' => by simp [h'] at hl
      exact .inr ⟨h.2, by rw [← hl]; exact h.1, rfl⟩
    · exact .inl ⟨_, by decide, rfl⟩
    · exact .inl ⟨_, by decide, rfl⟩
  all_goals exact .inr h

/-- No instruction leaves the machine halted but by a terminal condition, and no other changes `run_state` or `status`. -/
theorem exec_runState {i : Instr} {s t : State} (h : exec i s = .next t) :
    (∃ c, c ≠ .ok ∧ t = s.halt c) ∨ (t.runState = s.runState ∧ t.status = s.status) := by
  refine (exec_cases h).imp id fun hc => ?_
  cases i
  case ret => obtain ⟨_, rfl⟩ := hc; exact ⟨rfl, rfl⟩
  case callAddr => obtain ⟨_, rfl⟩ := hc; exact ⟨rfl, rfl⟩
  case drwVxVyN => obtain ⟨-, _, -, rfl⟩ := hc; exact ⟨rfl, rfl⟩
  case ldVxMem => obtain ⟨-, rfl⟩ := hc; rw [State.loadRegs_eq]; exact ⟨rfl, rfl⟩
  case ldBVx => obtain ⟨-, -, rfl⟩ := hc; exact ⟨rfl, rfl⟩
  case ldMemVx => obtain ⟨-, -, rfl⟩ := hc; exact ⟨rfl, rfl⟩
  case ldVxK => rcases hc with ⟨-, rfl⟩ | ⟨_, -, rfl⟩ <;> exact ⟨rfl, rfl⟩
  all_goals cases h; exact ⟨rfl, rfl⟩

/-- No instruction writes `keys`, `timer_stamp` or the environment's side (10_state.md R29, R36). -/
theorem exec_inputs {i : Instr} {s t : State} (h : exec i s = .next t) :
    SameInputs s t ∧ t.timerStamp = s.timerStamp := by
  rcases exec_cases h with ⟨_, -, rfl⟩ | hc
  · exact ⟨⟨rfl, rfl⟩, rfl⟩
  cases i
  case ret => obtain ⟨_, rfl⟩ := hc; exact ⟨⟨rfl, rfl⟩, rfl⟩
  case callAddr => obtain ⟨_, rfl⟩ := hc; exact ⟨⟨rfl, rfl⟩, rfl⟩
  case drwVxVyN => obtain ⟨-, _, -, rfl⟩ := hc; exact ⟨⟨rfl, rfl⟩, rfl⟩
  case ldVxMem => obtain ⟨-, rfl⟩ := hc; rw [State.loadRegs_eq]; exact ⟨⟨rfl, rfl⟩, rfl⟩
  case ldBVx => obtain ⟨-, -, rfl⟩ := hc; exact ⟨⟨rfl, rfl⟩, rfl⟩
  case ldMemVx => obtain ⟨-, -, rfl⟩ := hc; exact ⟨⟨rfl, rfl⟩, rfl⟩
  case ldVxK => rcases hc with ⟨-, rfl⟩ | ⟨_, -, rfl⟩ <;> exact ⟨⟨rfl, rfl⟩, rfl⟩
  all_goals cases h; exact ⟨⟨rfl, rfl⟩, rfl⟩

/-- What an instruction does to memory: nothing, or stores of bytes inside 0x050 to 0xFFF (20_memory.md R61, R72). -/
theorem exec_mem {i : Instr} {s t : State} (h : exec i s = .next t) :
    t.mem = s.mem ∨
      ∃ a bs, 80 ≤ a ∧ a + bs.length ≤ 4096 ∧ t.mem = Memory.writeBytes s.mem a bs ∧
        (i.family = .ldBVx ∨ i.family = .ldMemVx) := by
  rcases exec_cases h with ⟨_, -, rfl⟩ | hc
  · exact .inl rfl
  cases i
  case ret => obtain ⟨_, rfl⟩ := hc; exact .inl rfl
  case callAddr => obtain ⟨_, rfl⟩ := hc; exact .inl rfl
  case drwVxVyN => obtain ⟨-, _, -, rfl⟩ := hc; exact .inl rfl
  case ldVxMem => obtain ⟨-, rfl⟩ := hc; rw [State.loadRegs_eq]; exact .inl rfl
  case ldBVx => obtain ⟨h₁, h₂, rfl⟩ := hc; exact .inr ⟨_, decimalDigits _, h₁, h₂, rfl, .inl rfl⟩
  case ldMemVx x =>
    obtain ⟨h₁, h₂, rfl⟩ := hc
    exact .inr ⟨_, _, h₁, by rw [s.regsUpTo_length]; exact h₂, rfl, .inr rfl⟩
  case ldVxK => rcases hc with ⟨-, rfl⟩ | ⟨_, -, rfl⟩ <;> exact .inl rfl
  all_goals cases h; exact .inl rfl

end Sys2Proof.Machine
end

