-- ==== Sys2Proof/Laws/PerInstr.lean ====
section
/-! SUPPORT. Lemmas per instruction. -/

namespace Sys2Proof.Laws.Encoded

/-- The word that the encoder gives an instruction is a word of the instruction's own row (30_encoding.md R84, R85). -/
def Statement (i : Instr) : Prop := i.family.row.accepts (encode i) = true

theorem cls : Statement (.cls) := rfl

theorem ret : Statement (.ret) := rfl

theorem jpAddr (nnn : BitVec 12) : Statement (.jpAddr nnn) := by
  simp only [Statement, Row.accepts, Instr.family, Family.row, encode, formA_masked]
  rfl

theorem callAddr (nnn : BitVec 12) : Statement (.callAddr nnn) := by
  simp only [Statement, Row.accepts, Instr.family, Family.row, encode, formA_masked]
  rfl

theorem seVxKk (x : Reg) (kk : Byte) : Statement (.seVxKk x kk) := by
  simp only [Statement, Row.accepts, Instr.family, Family.row, encode, formXK_masked_op]
  rfl

theorem sneVxKk (x : Reg) (kk : Byte) : Statement (.sneVxKk x kk) := by
  simp only [Statement, Row.accepts, Instr.family, Family.row, encode, formXK_masked_op]
  rfl

theorem seVxVy (x y : Reg) : Statement (.seVxVy x y) := by
  simp only [Statement, Row.accepts, Instr.family, Family.row, encode, formXY_masked_op_n]
  rfl

theorem ldVxKk (x : Reg) (kk : Byte) : Statement (.ldVxKk x kk) := by
  simp only [Statement, Row.accepts, Instr.family, Family.row, encode, formXK_masked_op]
  rfl

theorem addVxKk (x : Reg) (kk : Byte) : Statement (.addVxKk x kk) := by
  simp only [Statement, Row.accepts, Instr.family, Family.row, encode, formXK_masked_op]
  rfl

theorem ldVxVy (x y : Reg) : Statement (.ldVxVy x y) := by
  simp only [Statement, Row.accepts, Instr.family, Family.row, encode, formXY_masked_op_n]
  rfl

theorem orVxVy (x y : Reg) : Statement (.orVxVy x y) := by
  simp only [Statement, Row.accepts, Instr.family, Family.row, encode, formXY_masked_op_n]
  rfl

theorem andVxVy (x y : Reg) : Statement (.andVxVy x y) := by
  simp only [Statement, Row.accepts, Instr.family, Family.row, encode, formXY_masked_op_n]
  rfl

theorem xorVxVy (x y : Reg) : Statement (.xorVxVy x y) := by
  simp only [Statement, Row.accepts, Instr.family, Family.row, encode, formXY_masked_op_n]
  rfl

theorem addVxVy (x y : Reg) : Statement (.addVxVy x y) := by
  simp only [Statement, Row.accepts, Instr.family, Family.row, encode, formXY_masked_op_n]
  rfl

theorem subVxVy (x y : Reg) : Statement (.subVxVy x y) := by
  simp only [Statement, Row.accepts, Instr.family, Family.row, encode, formXY_masked_op_n]
  rfl

theorem shrVx (x y : Reg) : Statement (.shrVx x y) := by
  simp only [Statement, Row.accepts, Instr.family, Family.row, encode, formXY_masked_op_n]
  rfl

theorem subnVxVy (x y : Reg) : Statement (.subnVxVy x y) := by
  simp only [Statement, Row.accepts, Instr.family, Family.row, encode, formXY_masked_op_n]
  rfl

theorem shlVx (x y : Reg) : Statement (.shlVx x y) := by
  simp only [Statement, Row.accepts, Instr.family, Family.row, encode, formXY_masked_op_n]
  rfl

theorem sneVxVy (x y : Reg) : Statement (.sneVxVy x y) := by
  simp only [Statement, Row.accepts, Instr.family, Family.row, encode, formXY_masked_op_n]
  rfl

theorem ldIAddr (nnn : BitVec 12) : Statement (.ldIAddr nnn) := by
  simp only [Statement, Row.accepts, Instr.family, Family.row, encode, formA_masked]
  rfl

theorem jpV0Addr (nnn : BitVec 12) : Statement (.jpV0Addr nnn) := by
  simp only [Statement, Row.accepts, Instr.family, Family.row, encode, formA_masked]
  rfl

theorem rndVxKk (x : Reg) (kk : Byte) : Statement (.rndVxKk x kk) := by
  simp only [Statement, Row.accepts, Instr.family, Family.row, encode, formXK_masked_op]
  rfl

theorem drwVxVyN (x y : Reg) (n : BitVec 4) : Statement (.drwVxVyN x y n) := by
  simp only [Statement, Row.accepts, Instr.family, Family.row, encode, formXY_masked_op]
  rfl

theorem skpVx (x : Reg) : Statement (.skpVx x) := by
  simp only [Statement, Row.accepts, Instr.family, Family.row, encode, formXK_masked_op_kk]
  rfl

theorem sknpVx (x : Reg) : Statement (.sknpVx x) := by
  simp only [Statement, Row.accepts, Instr.family, Family.row, encode, formXK_masked_op_kk]
  rfl

theorem ldVxDt (x : Reg) : Statement (.ldVxDt x) := by
  simp only [Statement, Row.accepts, Instr.family, Family.row, encode, formXK_masked_op_kk]
  rfl

theorem ldVxK (x : Reg) : Statement (.ldVxK x) := by
  simp only [Statement, Row.accepts, Instr.family, Family.row, encode, formXK_masked_op_kk]
  rfl

theorem ldDtVx (x : Reg) : Statement (.ldDtVx x) := by
  simp only [Statement, Row.accepts, Instr.family, Family.row, encode, formXK_masked_op_kk]
  rfl

theorem ldStVx (x : Reg) : Statement (.ldStVx x) := by
  simp only [Statement, Row.accepts, Instr.family, Family.row, encode, formXK_masked_op_kk]
  rfl

theorem addIVx (x : Reg) : Statement (.addIVx x) := by
  simp only [Statement, Row.accepts, Instr.family, Family.row, encode, formXK_masked_op_kk]
  rfl

theorem ldFVx (x : Reg) : Statement (.ldFVx x) := by
  simp only [Statement, Row.accepts, Instr.family, Family.row, encode, formXK_masked_op_kk]
  rfl

theorem ldBVx (x : Reg) : Statement (.ldBVx x) := by
  simp only [Statement, Row.accepts, Instr.family, Family.row, encode, formXK_masked_op_kk]
  rfl

theorem ldMemVx (x : Reg) : Statement (.ldMemVx x) := by
  simp only [Statement, Row.accepts, Instr.family, Family.row, encode, formXK_masked_op_kk]
  rfl

theorem ldVxMem (x : Reg) : Statement (.ldVxMem x) := by
  simp only [Statement, Row.accepts, Instr.family, Family.row, encode, formXK_masked_op_kk]
  rfl

end Sys2Proof.Laws.Encoded
end

