-- ==== Sys2Proof/Laws/Sprite.lean ====
section
/-! SUPPORT. What a sprite does to the display, pixel by pixel: the columns a sprite byte covers, and the rows, collision
and change of a whole draw. -/

namespace Sys2Proof.Machine

theorem ne_zero_iff_bit {n : Nat} (w : BitVec n) : w ≠ 0 ↔ ∃ x, w.getLsbD x = true := by
  constructor
  · intro h
    by_contra hx
    exact h (BitVec.eq_of_getLsbD_eq fun i _ => by simpa using fun hb => hx ⟨i, hb⟩)
  · rintro ⟨x, hx⟩ rfl
    simp at hx

/-- The columns that a sprite byte covers (41_display.md R122, R123). -/
theorem spriteRow_getLsbD (x0 : Nat) (b : Byte) (x : Nat) :
    (spriteRow x0 b).getLsbD x = true ↔ ∃ c < 8, x = (x0 + c) % 64 ∧ spriteBit b c = true := by
  have key : ∀ (l : List Nat) (m : BitVec 64),
      (l.foldl (fun m c => if spriteBit b c then m ||| BitVec.twoPow 64 ((x0 + c) % 64) else m) m).getLsbD x = true ↔
        m.getLsbD x = true ∨ ∃ c ∈ l, x = (x0 + c) % 64 ∧ spriteBit b c = true := by
    intro l
    induction l with
    | nil => simp
    | cons c l ih =>
      intro m
      rw [List.foldl_cons, ih]
      have hlt : (x0 + c) % 64 < 64 := Nat.mod_lt _ (by decide)
      by_cases hb : spriteBit b c = true
      · simp only [hb, if_true, BitVec.getLsbD_or, BitVec.getLsbD_twoPow, hlt, decide_true, Bool.true_and,
          Bool.or_eq_true, decide_eq_true_eq, List.mem_cons, exists_eq_or_imp, and_true]
        tauto
      · simp [hb]
  rw [spriteRow, key]
  simp

theorem spriteRow_eq_zero (x0 : Nat) (b : Byte) : spriteRow x0 b = 0 ↔ b = 0 := by
  constructor
  · intro h
    apply BitVec.eq_of_getLsbD_eq
    intro i hi
    have := (not_congr (spriteRow_getLsbD x0 b ((x0 + (7 - i)) % 64))).1 (by simp [h])
    have hbit : spriteBit b (7 - i) ≠ true := fun hb => this ⟨7 - i, by omega, rfl, hb⟩
    rw [spriteBit, show 7 - (7 - i) = i by omega] at hbit
    simpa using hbit
  · rintro rfl
    apply BitVec.eq_of_getLsbD_eq
    intro i hi
    rw [Bool.eq_iff_iff, spriteRow_getLsbD]
    simp [spriteBit]

/-- Whether the bytes, plotted from row `yy` on, cover the pixel at column `x` of row `y` (41_display.md R121). -/
def Covers (x0 yy : Nat) (bs : List Byte) (x y : Nat) : Prop :=
  ∃ r, ∃ h : r < bs.length, y = (yy + r) % 32 ∧ (spriteRow x0 bs[r]).getLsbD x = true

theorem Covers_nil (x0 yy x y : Nat) : ¬ Covers x0 yy [] x y := by rintro ⟨r, h, -⟩; simp at h

theorem Covers_cons (x0 yy : Nat) (b : Byte) (bs : List Byte) (x y : Nat) :
    Covers x0 yy (b :: bs) x y ↔
      (y = yy % 32 ∧ (spriteRow x0 b).getLsbD x = true) ∨ Covers x0 (yy + 1) bs x y := by
  constructor
  · rintro ⟨r, h, hy, hx⟩
    cases r with
    | zero => exact .inl ⟨hy, hx⟩
    | succ r => exact .inr ⟨r, by simpa using h, by rw [hy]; congr 1; omega, by simpa using hx⟩
  · rintro (⟨hy, hx⟩ | ⟨r, h, hy, hx⟩)
    · exact ⟨0, by simp, hy, hx⟩
    · exact ⟨r + 1, by simpa using h, by rw [hy]; congr 1; omega, by simpa using hx⟩

/-- The rows that a sprite of at most 32 bytes covers are distinct: the first of them is none of the later. -/
theorem Covers_later {x0 yy : Nat} {bs : List Byte} (h : bs.length < 32) {x y : Nat} (hc : Covers x0 (yy + 1) bs x y) :
    y ≠ yy % 32 := by
  obtain ⟨r, hr, hy, -⟩ := hc
  omega

/-- A draw flips exactly the pixels that the sprite covers. -/
theorem Drawing.plot_pixel (bs : List Byte) (d : Drawing) (x0 yy : Nat) (h : bs.length ≤ 32) (x y : Nat) (hy : y < 32) :
    (d.plot x0 yy bs).rows[y].getLsbD x = true ↔ (d.rows[y].getLsbD x = true ↔ ¬ Covers x0 yy bs x y) := by
  induction bs generalizing d yy with
  | nil => simp [Drawing.plot, Covers_nil]
  | cons b bs ih =>
    simp only [List.length_cons] at h
    rw [Drawing.plot, ih _ _ (by omega), Covers_cons]
    by_cases hrow : yy % 32 = y
    · have hl : ¬ Covers x0 (yy + 1) bs x y := fun hc => Covers_later (by omega) hc hrow.symm
      subst hrow
      simp only [Drawing.plotRow, Vector.getElem_set_self, BitVec.getLsbD_xor, hl, not_false_eq_true, iff_true, or_false,
        true_and]
      cases d.rows[yy % 32].getLsbD x <;> cases (spriteRow x0 b).getLsbD x <;> simp
    · have hne : ¬ y = yy % 32 := fun e => hrow e.symm
      simp only [Drawing.plotRow, Vector.getElem_set_ne _ _ hrow, hne, false_and, false_or]

/-- A draw collides when it covers a pixel that was set. -/
theorem Drawing.plot_collision (bs : List Byte) (d : Drawing) (x0 yy : Nat) (h : bs.length ≤ 32) :
    (d.plot x0 yy bs).collision = true ↔
      d.collision = true ∨ ∃ x, ∃ y, ∃ hy : y < 32, d.rows[y].getLsbD x = true ∧ Covers x0 yy bs x y := by
  induction bs generalizing d yy with
  | nil => simp [Drawing.plot, Covers_nil]
  | cons b bs ih =>
    simp only [List.length_cons] at h
    have hlt : yy % 32 < 32 := Nat.mod_lt _ (by decide)
    have hand : (d.rows[yy % 32] &&& spriteRow x0 b != 0) = true ↔
        ∃ x, d.rows[yy % 32].getLsbD x = true ∧ (spriteRow x0 b).getLsbD x = true := by
      rw [bne_iff_ne, ne_zero_iff_bit]
      simp
    rw [Drawing.plot, ih _ _ (by omega)]
    simp only [Drawing.plotRow, Bool.or_eq_true, hand]
    constructor
    · rintro ((hd | ⟨x, hx, hs⟩) | ⟨x, y, hy, hp, hc⟩)
      · exact .inl hd
      · exact .inr ⟨x, yy % 32, hlt, hx, (Covers_cons ..).2 (.inl ⟨rfl, hs⟩)⟩
      · have hne := Covers_later (by omega) hc
        rw [Vector.getElem_set_ne _ _ (Ne.symm hne)] at hp
        exact .inr ⟨x, y, hy, hp, (Covers_cons ..).2 (.inr hc)⟩
    · rintro (hd | ⟨x, y, hy, hp, hc⟩)
      · exact .inl (.inl hd)
      · rcases (Covers_cons ..).1 hc with ⟨rfl, hs⟩ | hc
        · exact .inl (.inr ⟨x, hp, hs⟩)
        · refine .inr ⟨x, y, hy, ?_, hc⟩
          rw [Vector.getElem_set_ne _ _ (Ne.symm (Covers_later (by omega) hc))]
          exact hp

/-- A draw changes a pixel exactly when some byte of the sprite is not zero (41_display.md R124). -/
theorem Drawing.plot_changed (bs : List Byte) (d : Drawing) (x0 yy : Nat) :
    (d.plot x0 yy bs).changed = true ↔ d.changed = true ∨ ∃ b ∈ bs, b ≠ 0 := by
  induction bs generalizing d yy with
  | nil => simp [Drawing.plot]
  | cons b bs ih =>
    have hz : (spriteRow x0 b != 0) = true ↔ b ≠ 0 := by rw [bne_iff_ne, ne_eq, spriteRow_eq_zero]
    rw [Drawing.plot, ih]
    simp only [Drawing.plotRow, Bool.or_eq_true, hz, List.mem_cons, exists_eq_or_imp, or_assoc]

theorem anyPixelSet_iff (rows : Vector (BitVec 64) 32) :
    anyPixelSet rows = true ↔ ∃ x, ∃ y, ∃ hy : y < 32, rows[y].getLsbD x = true := by
  simp only [anyPixelSet, List.any_eq_true, bne_iff_ne, ne_zero_iff_bit]
  constructor
  · rintro ⟨w, hw, x, hx⟩
    obtain ⟨y, hy, rfl⟩ := List.getElem_of_mem hw
    exact ⟨x, y, by simpa using hy, by simpa using hx⟩
  · rintro ⟨x, y, hy, h⟩
    exact ⟨rows[y], by simp, x, h⟩

end Sys2Proof.Machine
end

