-- ==== Sys2Proof/Laws/Step.lean ====
section
/-! SUPPORT. What a step can do, said once: every arm of exec answers a next state, and a step is one of the cases of
40_engine.md R100; and that a run keeps what a step keeps. -/

namespace Sys2Proof.Machine

/-- The state that an instruction's handler leaves. -/
theorem exec_next (i : Instr) (s : State) : ∃ t, exec i s = .next t := by
  cases i <;> exact ⟨_, rfl⟩

theorem State.envMoves_of_nil {s : State} (h : s.turn.moves = []) : s.envMoves = s := by simp [State.envMoves, h]

/-- The driver's step, case by case (40_engine.md R100, 60_exceptions.md R199). -/
theorem driverStep_cases (s : State) :
    (s.runState = .halted ∧ driverStep s = .next s) ∨
    (s.runState = .running ∧ s.turn.haltRequest = true ∧ driverStep s = .next (s.halt .haltRequested)) ∨
    (s.runState = .running ∧ s.turn.haltRequest = false ∧ 0xFFF < s.pc.toNat + 1 ∧
      driverStep s = .next (s.halt .addressOutOfRange)) ∨
    (s.runState = .running ∧ s.turn.haltRequest = false ∧ s.pc.toNat + 1 ≤ 0xFFF ∧
      decode s.wordAtPc = .error (.unhandled s.wordAtPc) ∧ driverStep s = .next (s.halt .unhandled)) ∨
    (s.runState = .running ∧ s.turn.haltRequest = false ∧ s.pc.toNat + 1 ≤ 0xFFF ∧
      ∃ i t, decode s.wordAtPc = .ok i ∧ exec i s = .next t ∧ driverStep s = .next (afterHandler i s t)) := by
  unfold driverStep
  cases hr : s.runState with
  | halted => simp
  | running =>
    cases hh : s.turn.haltRequest with
    | true => simp
    | false =>
      by_cases hp : 0xFFF < s.pc.toNat + 1
      · simp [State.fetch, State.memReadWord, hp]
      · have hf : s.fetch = .ok s.wordAtPc := by simp [State.fetch, State.memReadWord, State.wordAtPc]; omega
        rcases decode_cases s.wordAtPc with ⟨f, -, hd⟩ | ⟨-, hd⟩
        · obtain ⟨t, ht⟩ := exec_next (f.instr (fieldsOf s.wordAtPc)) s
          refine .inr (.inr (.inr (.inr ⟨rfl, rfl, by omega, _, t, hd, ht, ?_⟩)))
          simp [hf, hd, ht]
        · refine .inr (.inr (.inr (.inl ⟨rfl, rfl, by omega, hd, ?_⟩)))
          simp [hf, hd]

/-- A step is the driver's step on the state that the environment's moves leave, and then the turn is over. -/
theorem step_eq_next {s t : State} (h : driverStep s.envMoves = .next t) : step s = .next t.endTurn := by
  simp [step, h]

/-- The state that a step leaves is the driver's, its turn over. -/
theorem step_inv {s t : State} (h : step s = .next t) :
    ∃ u, driverStep s.envMoves = .next u ∧ t = u.endTurn := by
  unfold step at h
  split at h
  · next u hu => exact ⟨u, hu, by simpa using h.symm⟩
  all_goals cases h

/-- The driver leaves the environment's side alone. -/
theorem driverStep_env {s t : State} (h : driverStep s = .next t) : t.env = s.env := by
  rcases driverStep_cases s with
    ⟨-, e⟩ | ⟨-, -, e⟩ | ⟨-, -, -, e⟩ | ⟨-, -, -, -, e⟩ | ⟨-, -, -, i, u, -, hu, e⟩ <;>
    rw [e] at h <;> cases h
  all_goals try rfl
  unfold afterHandler
  split <;> exact (exec_inputs hu).1.2

/-- The environment's moves change neither its list of turns, nor the count of steps, nor the tick period. -/
theorem envMoves_env (s : State) :
    s.envMoves.env.turns = s.env.turns ∧ s.envMoves.env.drawn = s.env.drawn ∧
      s.envMoves.env.tickPeriod = s.env.tickPeriod := by
  unfold State.envMoves
  generalize s.turn.moves = ms
  induction ms generalizing s with
  | nil => exact ⟨rfl, rfl, rfl⟩
  | cons m ms ih =>
    rw [List.foldl_cons]
    obtain ⟨h₁, h₂, h₃⟩ := ih (m.apply s)
    rw [h₁, h₂, h₃]
    cases m <;> exact ⟨rfl, rfl, rfl⟩

/-! ### Turns -/

theorem State.turnAt_zero (s : State) : s.turnAt 0 = s.turn := by
  unfold State.turnAt State.turn
  cases s.env.turns <;> rfl

/-- The moves leave the turn as it is: its inputs are those of the step. -/
theorem State.envMoves_turn (s : State) : s.envMoves.turn = s.turn := by
  obtain ⟨h₁, h₂, -⟩ := envMoves_env s
  rw [State.turn, State.turn, h₁, h₂]

/-- After a step the turns to come are those that were to come after it. -/
theorem step_turnAt {s t : State} (h : step s = .next t) (k : Nat) : t.turnAt k = s.turnAt (k + 1) := by
  obtain ⟨u, hu, rfl⟩ := step_inv h
  obtain ⟨h₁, h₂, -⟩ := envMoves_env s
  simp only [State.turnAt, State.endTurn_env, driverStep_env hu, h₁, h₂, List.getElem?_tail]
  rw [Nat.add_assoc, Nat.add_comm 1 k]

/-- The driver stalls exactly at an `LD Vx,K` that it reaches with no key reported (40_engine.md R109). -/
theorem driverStalls_iff (s : State) :
    driverStalls s = true ↔
      s.runState = .running ∧ s.turn.haltRequest = false ∧ s.pc.toNat < 0xFFF ∧ s.turn.keyReport = none ∧
        ∃ x, decode s.wordAtPc = .ok (.ldVxK x) := by
  have hrun : s.running = true ↔ s.runState = .running := by simp [State.running]
  by_cases hp : s.pc.toNat < 0xFFF
  · have hf : s.fetch = .ok s.wordAtPc := by simp [State.fetch, State.memReadWord, State.wordAtPc]; omega
    simp only [driverStalls, hf, Bool.and_eq_true, hrun, hp, true_and]
    cases hd : decode s.wordAtPc with
    | error r => simp
    | ok i => cases i <;> simp [stalls, and_assoc]
  · have hf : s.fetch = .error .addressOutOfRange := by simp [State.fetch, State.memReadWord]; omega
    simp [driverStalls, hf, hp]

/-- What holds of a state and is kept by every step holds of every state that a run of any length reaches. -/
theorem run_keeps {P : State → Prop} (hstep : ∀ s t, P s → step s = .next t → P t) :
    ∀ (n : Nat) (s t : State), P s → core.run n s = .next t → P t
  | 0, s, t, hs, h => by
    injection h with h
    exact h ▸ hs
  | n + 1, s, t, hs, h => by
    simp only [Host.Core.run] at h
    split at h
    · next u hu => exact run_keeps hstep n u t (hstep s u hs hu) h
    all_goals cases h

end Sys2Proof.Machine
end

