-- ==== Sys2Proof/Tests/Slice0.lean ====
section
/-! SUPPORT. The model's own tests. Every expected value is from spec/ (a vector's id is 95_test_vectors.md's), worked out
from the rules there, none from a run of this model. Then a witness for the hypotheses of each statement. -/

namespace Sys2Proof.Tests

open Sys2Proof Sys2Proof.Machine

/-! ### Helpers -/

/-- A state with some registers written. -/
def withRegs (s : State) (l : List (Reg × Byte)) : State := l.foldl (fun s p => s.setReg p.1 p.2) s

/-- A state with some bytes written to memory. -/
def withBytes (s : State) (a : Nat) (bs : List Byte) : State := { s with mem := Memory.writeBytes s.mem a bs }

/-- The reset state with some registers and `I`. -/
def start (l : List (Reg × Byte)) (index : Word := 0x300) : State := withRegs { State.reset with index := index } l

/-- One turn of the environment: no move, the four inputs as given. -/
def turn (keyReport : Option (BitVec 4) := none) (randByte : Byte := 0) (elapsed : Nat := 0) (halt : Bool := false) :
    EnvTurn :=
  { moves := [], haltRequest := halt, keyReport := keyReport, randByte := randByte, elapsed := elapsed }

/-- A state with the environment's turns. -/
def withTurns (s : State) (l : List EnvTurn) : State := { s with env := { s.env with turns := l } }

/-- The state after one step, where there is one. -/
def stepped (s : State) : Option State :=
  match step s with
  | .next t => some t
  | .fault _ => none
  | .refused _ => none

/-- The state after the step that runs a word stored at `pc`. -/
def ran (s : State) (w : Nat) : Option State := stepped (s.withFetchWord 16 w)

/-- What a view sees after the step that runs a word. -/
def seen {α : Type} (s : State) (w : Nat) (view : State → α) : Option α := (ran s w).map view

/-! ### Well-formedness: one ill-formed term for each check -/

theorem test_wf_accepts : (fieldsOf 0x8AB4).wellFormed = true := by decide
theorem test_wf_rejects_op : { fieldsOf 0x8AB4 with op := 0x9 }.wellFormed = false := by decide
theorem test_wf_rejects_nnn : { fieldsOf 0x8AB4 with nnn := 0xAB5 }.wellFormed = false := by decide
theorem test_wf_rejects_x : { fieldsOf 0x8AB4 with x := 11 }.wellFormed = false := by decide
theorem test_wf_rejects_y : { fieldsOf 0x8AB4 with y := 10 }.wellFormed = false := by decide
theorem test_wf_rejects_kk : { fieldsOf 0x8AB4 with kk := 0xB5 }.wellFormed = false := by decide
theorem test_wf_rejects_n : { fieldsOf 0x8AB4 with n := 0x5 }.wellFormed = false := by decide
/-- A pattern with a bit outside its mask. -/
theorem test_row_wf_rejects : (⟨0x5001, 0xF000, .seVxVy⟩ : Row).wellFormed = false := by decide
/-- `5xy0` beside `5xyz`: both accept 0x5120. -/
theorem test_row_disjoint_rejects :
    Row.disjoint ⟨0x5000, 0xF00F, .seVxVy⟩ ⟨0x5000, 0xF000, .seVxVy⟩ = false := by decide
theorem test_rows_wf : dispatchTable.all Row.wellFormed = true := by decide

/-! ### Decoding: a word of every row of R85, written out bit by bit as `op`, `x`, `y`, `n` (R81, R83) -/

theorem test_decode_rows_0_to_7 :
    decode 0b0000_0000_1110_0000 = .ok .cls ∧
    decode 0b0000_0000_1110_1110 = .ok .ret ∧
    decode 0b0001_0010_0011_0100 = .ok (.jpAddr 0x234) ∧
    decode 0b0010_0100_0000_0000 = .ok (.callAddr 0x400) ∧
    decode 0b0011_0001_0000_0101 = .ok (.seVxKk 1 0x05) ∧
    decode 0b0100_0001_0000_0101 = .ok (.sneVxKk 1 0x05) ∧
    decode 0b0101_0010_0011_0000 = .ok (.seVxVy 2 3) ∧
    decode 0b0110_1010_0000_0011 = .ok (.ldVxKk 10 0x03) ∧
    decode 0b0111_0001_1111_1110 = .ok (.addVxKk 1 0xFE) := by decide

theorem test_decode_rows_8_to_9 :
    decode 0b1000_0010_0011_0000 = .ok (.ldVxVy 2 3) ∧
    decode 0b1000_0010_0011_0001 = .ok (.orVxVy 2 3) ∧
    decode 0b1000_0010_0011_0010 = .ok (.andVxVy 2 3) ∧
    decode 0b1000_0010_0011_0011 = .ok (.xorVxVy 2 3) ∧
    decode 0b1000_1010_1011_0100 = .ok (.addVxVy 10 11) ∧
    decode 0b1000_0010_0011_0101 = .ok (.subVxVy 2 3) ∧
    decode 0b1000_0010_0111_0110 = .ok (.shrVx 2 7) ∧
    decode 0b1000_0010_0011_0111 = .ok (.subnVxVy 2 3) ∧
    decode 0b1000_0010_0111_1110 = .ok (.shlVx 2 7) ∧
    decode 0b1001_0010_0011_0000 = .ok (.sneVxVy 2 3) := by decide

theorem test_decode_rows_A_to_E :
    decode 0b1010_0011_0000_0001 = .ok (.ldIAddr 0x301) ∧
    decode 0b1011_0001_0010_0000 = .ok (.jpV0Addr 0x120) ∧
    decode 0b1100_0011_0000_1111 = .ok (.rndVxKk 3 0x0F) ∧
    decode 0b1101_0000_0001_0101 = .ok (.drwVxVyN 0 1 5) ∧
    decode 0b1110_0010_1001_1110 = .ok (.skpVx 2) ∧
    decode 0b1110_0010_1010_0001 = .ok (.sknpVx 2) := by decide

theorem test_decode_rows_F :
    decode 0b1111_0001_0000_0111 = .ok (.ldVxDt 1) ∧
    decode 0b1111_0001_0000_1010 = .ok (.ldVxK 1) ∧
    decode 0b1111_0001_0001_0101 = .ok (.ldDtVx 1) ∧
    decode 0b1111_0001_0001_1000 = .ok (.ldStVx 1) ∧
    decode 0b1111_0001_0001_1110 = .ok (.addIVx 1) ∧
    decode 0b1111_0001_0010_1001 = .ok (.ldFVx 1) ∧
    decode 0b1111_0001_0011_0011 = .ok (.ldBVx 1) ∧
    decode 0b1111_0001_0101_0101 = .ok (.ldMemVx 1) ∧
    decode 0b1111_0011_0110_0101 = .ok (.ldVxMem 3) := by decide

/-- The words of 95_test_vectors.md 2.2. -/
theorem test_decode_unhandled :
    ([0x0000, 0x00E1, 0x00EF, 0x00FE, 0x0123, 0x0FFF, 0x5121, 0x512F, 0x8128, 0x8129, 0x812A, 0x812B, 0x812C, 0x812D,
      0x812F] ++ [0x9121, 0xE000, 0xE19F, 0xE1A0, 0xE19D, 0xF100, 0xF106, 0xF10B, 0xF116, 0xF11F, 0xF130, 0xF175, 0xF185,
      0xF1FF] : List Word).all (fun w => (dispatchIn dispatchTable w).isNone) = true := by decide

/-- "bytes `12 34` at `pc` are the word 0x1234 (`JP 0x234`), not 0x3412". -/
theorem test_decode_byte_order : decodeBytes [0x12, 0x34, 0x56] = .ok (.jpAddr 0x234, [0x56]) := by decide
theorem test_decode_truncated : decodeBytes [0x12] = .error .truncated := by decide
theorem test_decode_table_word : decodeTableWord 16 0x1234 = some (.jpAddr 0x234) := by decide
/-- T-DEC-3, the fields. -/
theorem test_fields : fieldsOf 0xF365 = ⟨0xF365, 0xF, 0x365, 3, 6, 0x65, 5⟩ := by decide

/-! ### Display instructions -/

/-- T-CLS-1, T-CLS-4. -/
theorem test_cls_clears_and_sets_dirty :
    seen { start [(15, 1)] with disp := State.reset.disp.set 0 0xFF } 0x00E0
      (fun t => (t.disp, t.dirty, t.reg 15, t.pc)) = some (Vector.replicate 32 0, true, 1, 0x202) := by decide
/-- T-CLS-2. -/
theorem test_cls_of_clear_display : seen (start []) 0x00E0 (·.dirty) = some false := by decide
/-- T-DRW-3 and T-DRW-5: right-edge and bottom-edge wrap. -/
theorem test_drw_wraps :
    seen (withBytes (start [(0, 62)]) 0x300 [0xFF]) 0xD011 (fun t => (t.disp[0], t.reg 15, t.dirty, t.index)) =
      some (0xC00000000000003F, 0, true, 0x300) ∧
    seen (withBytes (start [(1, 31)]) 0x300 [0x80, 0x80]) 0xD012 (fun t => (t.disp[31], t.disp[0])) =
      some (1, 1) := by decide
/-- T-DRW-9, where the old `V[15]` is the coordinate, and T-DRW-8, a collision. -/
theorem test_drw_flag :
    seen (withBytes (start [(15, 5)]) 0x300 [0x80]) 0xDF11 (fun t => (t.disp[0], t.reg 15, t.getPixel 5 0)) =
      some (0x20, 0, true) ∧
    seen (withBytes { start [] with disp := State.reset.disp.set 0 1 } 0x300 [0xC0]) 0xD011
      (fun t => (t.disp[0], t.reg 15)) = some (2, 1) := by decide

/-! ### Stack and jump instructions -/

/-- T-RET-3. -/
theorem test_ret_from_full_stack :
    seen { start [] with sp := 16, stack := State.reset.stack.set 15 0xABC } 0x00EE (fun t => (t.pc, t.sp)) =
      some (0xABC, 15) := by decide
/-- T-RET-2. -/
theorem test_ret_underflow :
    seen (start []) 0x00EE (fun t => (t.status, t.runState, t.sp, t.pc)) =
      some (.stackUnderflow, .halted, 0, 0x200) := by decide
/-- T-JP-3. -/
theorem test_jp : seen (start []) 0x1FFF (·.pc) = some 0xFFF := by decide
/-- T-CALL-2. -/
theorem test_call_fills_stack :
    seen { start [] with pc := 0x300, sp := 15 } 0x2400 (fun t => (t.stack[15], t.sp, t.pc)) =
      some (0x302, 16, 0x400) := by decide
/-- T-CALL-3. -/
theorem test_call_overflow :
    seen { start [] with pc := 0x300, sp := 16 } 0x2400 (fun t => (t.status, t.stack[15], t.sp, t.pc)) =
      some (.stackOverflow, 0, 16, 0x300) := by decide
/-- T-JPV-2. -/
theorem test_jpv0_unreduced : seen (start [(0, 0xFF)]) 0xBFFF (·.pc) = some 0x10FE := by decide
/-- T-JPV-3. -/
theorem test_jpv0_uses_v0 : seen (start [(0, 2), (1, 0x55)]) 0xB120 (·.pc) = some 0x122 := by decide

/-! ### Skip instructions -/

/-- T-SE-1, T-SE-2. -/
theorem test_se_imm :
    seen (start []) 0x3100 (·.pc) = some 0x204 ∧ seen (start [(1, 1)]) 0x3100 (·.pc) = some 0x202 := by decide
/-- T-SNE-1, T-SNE-2. -/
theorem test_sne_imm :
    seen (start []) 0x4100 (·.pc) = some 0x202 ∧ seen (start [(1, 1)]) 0x4100 (·.pc) = some 0x204 := by decide
/-- T-SER-1, T-SER-2. -/
theorem test_se_reg :
    seen (start [(2, 7), (3, 7)]) 0x5230 (·.pc) = some 0x204 ∧
    seen (start [(2, 7), (3, 8)]) 0x5230 (·.pc) = some 0x202 := by decide
/-- T-SNER-1, T-SNER-2. -/
theorem test_sne_reg :
    seen (start [(2, 7), (3, 8)]) 0x9230 (·.pc) = some 0x204 ∧
    seen (start [(2, 7), (3, 7)]) 0x9230 (·.pc) = some 0x202 := by decide

/-! ### Register and arithmetic instructions -/

/-- T-LDK-1. -/
theorem test_ld_imm : seen (start []) 0x6A03 (fun t => (t.reg 10, t.pc)) = some (3, 0x202) := by decide
/-- T-LDR-1. -/
theorem test_ld_reg : seen (start [(3, 0x2A)]) 0x8230 (fun t => (t.reg 2, t.reg 3)) = some (0x2A, 0x2A) := by decide
/-- T-ADDK-2. -/
theorem test_add_imm_wraps : seen (start [(1, 0xFF)]) 0x7101 (fun t => (t.reg 1, t.reg 15)) = some (0, 0) := by decide
/-- T-OR-1. -/
theorem test_or : seen (start [(0, 0xF0), (1, 0x0F), (15, 1)]) 0x8011 (fun t => (t.reg 0, t.reg 15)) = some (0xFF, 1) := by
  decide
/-- T-AND-1. -/
theorem test_and : seen (start [(0, 0xF0), (1, 0x3C), (15, 1)]) 0x8012 (fun t => (t.reg 0, t.reg 15)) = some (0x30, 1) := by
  decide
/-- T-XOR-1. -/
theorem test_xor : seen (start [(0, 0xF0), (1, 0x3C), (15, 1)]) 0x8013 (fun t => (t.reg 0, t.reg 15)) = some (0xCC, 1) := by
  decide
/-- T-ADD-4. -/
theorem test_add_carry : seen (start [(0, 0xFF), (1, 0xFF)]) 0x8014 (fun t => (t.reg 0, t.reg 15)) = some (0xFE, 1) := by
  decide
/-- T-ADD-6: the flag is the later write. -/
theorem test_add_into_vf : seen (start [(15, 0x10), (1, 0x20)]) 0x8F14 (·.reg 15) = some 0 := by decide
/-- T-SUB-1. -/
theorem test_sub_borrow : seen (start [(0, 5), (1, 10)]) 0x8015 (fun t => (t.reg 0, t.reg 15)) = some (0xFB, 0) := by decide
/-- T-SUB-3. -/
theorem test_sub_equal : seen (start [(0, 7), (1, 7)]) 0x8015 (fun t => (t.reg 0, t.reg 15)) = some (0, 1) := by decide
/-- T-SUBN-1. -/
theorem test_subn_borrow : seen (start [(0, 10), (1, 5)]) 0x8017 (fun t => (t.reg 0, t.reg 15)) = some (0xFB, 0) := by
  decide
/-- T-SUBN-3. -/
theorem test_subn_equal : seen (start [(0, 7), (1, 7)]) 0x8017 (fun t => (t.reg 0, t.reg 15)) = some (0, 1) := by decide
/-- T-SHR-5: `y` plays no part. -/
theorem test_shr_ignores_y :
    seen (start [(2, 5), (7, 0xF0)]) 0x8276 (fun t => (t.reg 2, t.reg 15, t.reg 7)) = some (2, 1, 0xF0) := by decide
/-- T-SHR-7. -/
theorem test_shr_of_vf : seen (start [(15, 2)]) 0x8F06 (·.reg 15) = some 0 := by decide
/-- T-SHL-4: `y` plays no part. -/
theorem test_shl_ignores_y :
    seen (start [(2, 0x81), (7, 1)]) 0x827E (fun t => (t.reg 2, t.reg 15, t.reg 7)) = some (2, 1, 1) := by decide
/-- T-SHL-5. -/
theorem test_shl_of_vf : seen (start [(15, 0x80)]) 0x8F0E (·.reg 15) = some 1 := by decide
/-- T-RND-1. -/
theorem test_rnd : seen (withTurns (start []) [turn (randByte := 0xA7)]) 0xC30F (·.reg 3) = some 7 := by decide

/-! ### Index-register and memory instructions -/

/-- T-LDI-2. -/
theorem test_ld_i : seen (start []) 0xAFFF (·.index) = some 0xFFF := by decide
/-- T-ADDI-3. -/
theorem test_add_i_wraps : seen (start [(1, 1)] 0xFFFF) 0xF11E (fun t => (t.index, t.reg 15)) = some (0, 0) := by decide
/-- T-LDF-4: the whole value. -/
theorem test_ld_f : seen (start [(10, 0xFF)]) 0xFA29 (·.index) = some 0x4FB := by decide
/-- T-BCD-3. -/
theorem test_bcd :
    seen (start [(0, 123)]) 0xF033 (fun t => (t.peek 0x300, t.peek 0x301, t.peek 0x302, t.index)) =
      some (1, 2, 3, 0x300) := by decide
/-- T-BCD-8: the font table. -/
theorem test_bcd_font_write :
    seen (start [(0, 0xFF)] 0x04E) 0xF033 (fun t => (t.status, t.peek 0x04E, t.peek 0x04F, t.peek 0x050)) =
      some (.fontWrite, 0x80, 0x80, 0) := by decide
/-- T-ST-1. -/
theorem test_store_v0_only :
    seen (start [(0, 0x11), (1, 0x22)]) 0xF055 (fun t => (t.peek 0x300, t.peek 0x301, t.index)) =
      some (0x11, 0, 0x300) := by decide
/-- T-ST-4. -/
theorem test_store_out_of_range :
    seen (start [(0, 0x11)] 0xFF1) 0xFF55 (fun t => (t.status, t.peek 0xFF1, t.pc)) =
      some (.addressOutOfRange, 0, 0x200) := by decide
/-- T-LD-1: glyph 0. -/
theorem test_load_reads_font :
    seen (start [(5, 9)] 0) 0xF465 (fun t => (t.reg 0, t.reg 1, t.reg 2, t.reg 3, t.reg 4, t.reg 5)) =
      some (0xF0, 0x90, 0x90, 0x90, 0xF0, 9) := by decide
/-- T-LD-2. -/
theorem test_load_out_of_range :
    seen (start [(0, 0x77)] 0xFF1) 0xFF65 (fun t => (t.status, t.reg 0)) = some (.addressOutOfRange, 0x77) := by decide

/-! ### Keyboard and timer instructions; the timer update -/

/-- T-SKP-1, T-SKP-3. -/
theorem test_skp :
    seen { start [(2, 0x0A)] with keys := 0x0400 } 0xE29E (·.pc) = some 0x204 ∧
    seen { start [(2, 0x1A)] with keys := 0xFFFF } 0xE29E (·.pc) = some 0x202 := by decide
/-- T-SKNP-2, T-SKNP-3. -/
theorem test_sknp :
    seen { start [(2, 0x0A)] with keys := 0x0400 } 0xE2A1 (·.pc) = some 0x202 ∧
    seen { start [(2, 0x10)] with keys := 0xFFFF } 0xE2A1 (·.pc) = some 0x204 := by decide
/-- T-LDT-2: the timer is read before the update. -/
theorem test_ld_vx_dt :
    seen (withTurns { start [] with dt := 3 } [turn (elapsed := 16667)]) 0xF107 (fun t => (t.reg 1, t.dt)) =
      some (3, 2) := by decide
/-- T-SDT-2. -/
theorem test_ld_dt_vx :
    seen (withTurns (start [(0, 3)]) [turn (elapsed := 16667)]) 0xF015 (·.dt) = some 2 := by decide
/-- T-SST-1. -/
theorem test_ld_st_vx :
    seen (withTurns (start [(0, 2)]) [turn]) 0xF018 (fun t => (t.st, t.shouldPlaySound)) = some (2, true) := by decide
/-- T-KEY-1: the wait freezes everything; the output shows a wait at a program that a move of the same turn loads. -/
theorem test_ld_vx_k_waits :
    seen (withTurns { start [] with dt := 5 } [turn (elapsed := 16667)]) 0xF20A
      (fun t => (t.pc, t.reg 2, t.dt, t.timerStamp, t.runState)) = some (0x200, 0, 5, 0, .running) ∧
    ((withTurns (start []) [turn]).withFetchWord 16 0xF20A).waitingForKey = true ∧
    (withTurns (start []) [{ turn with moves := [.loadProgram [0xF0, 0x0A]] }]).waitingForKey = true := by decide
/-- T-KEY-3. -/
theorem test_ld_vx_k_takes_key :
    seen (withTurns (start []) [turn (keyReport := some 15)]) 0xFF0A (fun t => (t.reg 15, t.pc)) =
      some (15, 0x202) := by decide
/-- T-TMR-1, T-TMR-3, T-TMR-5. -/
theorem test_timer_update :
    let at5 : State := { State.reset with dt := 5, st := 5 }
    let v := fun t : State => (t.timerStamp, t.dt, t.st)
    v (at5.timerUpdate 16666) = (0, 5, 5) ∧ v (at5.timerUpdate 50001) = (50001, 4, 4) ∧
    v (State.reset.timerUpdate 20000) = (20000, 0, 0) := by decide

/-! ### The driver and the ports -/

/-- T-ENV-10. -/
theorem test_halt_request :
    (stepped (withTurns (withBytes (start []) 0x200 [0x60, 0x05]) [turn (halt := true)])).map
      (fun t => (t.statusOut, t.reg 0, t.pc, t.running)) = some (2, 0, 0x200, false) := by decide
/-- R107: an unhandled word; the codes of R190. -/
theorem test_unhandled : seen (start []) 0x5121 (fun t => (t.statusOut, t.pc, t.running)) = some (1, 0x200, false) := by
  decide
/-- T-JP-3, second step: the fetch at 0xFFF. -/
theorem test_fetch_out_of_range :
    (stepped (withTurns { start [] with pc := 0xFFF } [turn])).map (fun t => (t.statusOut, t.pc)) = some (5, 0xFFF) := by decide
theorem test_status_codes :
    [Status.ok, .unhandled, .haltRequested, .stackOverflow, .stackUnderflow, .addressOutOfRange, .fontWrite].map
      Status.code = [0, 1, 2, 3, 4, 5, 6] := by decide
/-- T-ENV-1, T-ENV-2, T-ENV-3. -/
theorem test_set_key :
    (State.reset.setKey 3 true).keys = 0x0008 ∧ ({ State.reset with keys := 0x000F }.setKey 3 false).keys = 0x0007 ∧
    (State.reset.setKey 16 true).keys = 0 := by decide
/-- T-ENV-4. -/
theorem test_get_pixel_out_of_range :
    { State.reset with disp := Vector.replicate 32 (BitVec.allOnes 64) }.getPixel 64 0 = false ∧
    { State.reset with disp := Vector.replicate 32 (BitVec.allOnes 64) }.getPixel 0 32 = false := by decide
/-- T-ENV-6. -/
theorem test_load_program :
    ((withBytes State.reset 0x203 [0x11]).loadProgram [0xAA, 0xBB, 0xCC]).mem =
      [(0x200, 0xAA), (0x201, 0xBB), (0x202, 0xCC)] := by decide
/-- T-ENV-9, and the moves come before the step: `initialize`, then a program of one word, then the step runs it. -/
theorem test_moves_then_step :
    (stepped (withTurns { start [(0, 9)] with runState := .halted, status := .stackOverflow }
        [{ turn with moves := [.reinit 100, .loadProgram [0x61, 0x05], .setKey 2 true, .dirtyClear] }])).map
      (fun t => (t.statusOut, t.reg 0, t.reg 1, t.pc, t.keys, t.timerStamp)) = some (0, 0, 5, 0x202, 4, 100) := by decide
/-- T-ENV-11. -/
theorem test_halted_step :
    (stepped (withTurns { start [] with runState := .halted, status := .unhandled, dt := 5 } [turn (elapsed := 20000)])).map
      (fun t => (t.dt, t.timerStamp, t.pc, t.running)) = some (5, 0, 0x200, false) := by decide
/-- Memory in canonical form: writing what an unlisted address reads as removes the entry. -/
theorem test_memory_canonical :
    Memory.write [(0x300, 0x11)] 0x300 0 = [] ∧ Memory.write [] 0x000 0xF0 = [] ∧
    Memory.wf [(0x300, 0x11), (0x200, 0x22)] = false := by decide

/-! ### Witnesses: states and operands that meet the hypotheses of the statements -/

/-- A ready machine about to run a word. -/
def ready (w : Nat) : State := (withTurns (start []) [turn]).withFetchWord 16 w

theorem witness_EncodeOfDecode : decode 0x8276 = .ok (.shrVx 2 7) ∧ decode 0xFFFF = .error (.unhandled 0xFFFF) := by decide

theorem witness_DispatchIgnoresRowOrder : dispatchTable.reverse.Perm dispatchTable := List.reverse_perm _

/-- An image one byte too long (T-ENV-7), an image that leaves bytes to fill, and the empty image. -/
theorem witness_LoadProgramCopiesAndZeroFills :
    3583 < min (List.replicate 3585 (0xAA : Byte)).length 3584 ∧ min ([0xAA] : List Byte).length 3584 ≤ 3583 ∧
    min ([] : List Byte).length 3584 ≤ 0 := by rw [List.length_replicate]; decide

theorem witness_SetKeyWritesOneBit : 15 < 16 ∧ ¬ 15 < 15 := by decide

/-- The last pixel in range, and the first beyond each edge. -/
theorem witness_PortsReadPixelSoundAndClearDirty :
    (63 ≤ 63 ∧ 31 ≤ 31) ∧ (63 < 64 ∨ 31 < 0) ∧ (63 < 0 ∨ 31 < 32) ∧
    { State.reset with st := 1 }.shouldPlaySound = true := by decide

/-- An instruction that completes, one that halts, and one that stalls; the last word the fetch reaches. -/
theorem witness_StepRunsTheDecodedInstruction :
    ((ready 0x6005).Ready ∧ (ready 0x6005).pc.toNat + 1 ≤ 0xFFF ∧ decode (ready 0x6005).wordAtPc = .ok (.ldVxKk 0 5) ∧
      ∃ t, exec (.ldVxKk 0 5) (ready 0x6005) = .next t ∧ stalls (.ldVxKk 0 5) (ready 0x6005) = false ∧
        t.runState = .running) ∧
    ((ready 0x00EE).Ready ∧ decode (ready 0x00EE).wordAtPc = .ok .ret ∧
      ∃ t, exec .ret (ready 0x00EE) = .next t ∧ t.runState = .halted) ∧
    ((ready 0xF00A).Ready ∧ decode (ready 0xF00A).wordAtPc = .ok (.ldVxK 0) ∧
      ∃ t, exec (.ldVxK 0) (ready 0xF00A) = .next t ∧ stalls (.ldVxK 0) (ready 0xF00A) = true) ∧
    ({ start [] with pc := 0xFFE } : State).pc.toNat + 1 ≤ 0xFFF :=
  ⟨⟨⟨rfl, rfl, rfl⟩, by decide, by decide, _, rfl, rfl, rfl⟩, ⟨⟨rfl, rfl, rfl⟩, by decide, _, rfl, rfl⟩,
    ⟨⟨rfl, rfl, rfl⟩, by decide, _, rfl, rfl⟩, by decide⟩

/-- A halted machine with turns to come, its inputs active. -/
theorem witness_HaltedStepsChangeNothing :
    let s := withTurns { start [] with runState := .halted } [turn (halt := true), turn (elapsed := 20000)]
    s.runState = .halted ∧ ∀ k < 2, (s.turnAt k).moves = [] := by decide

theorem witness_OnlyInitializeLeavesHalted :
    let s := withTurns { start [] with runState := .halted } [{ turn with moves := [.setKey 1 true, .loadProgram [1]] }]
    s.runState = .halted ∧ ∀ k < 1, ∀ elapsed, EnvMove.reinit elapsed ∉ (s.turnAt k).moves := by
  refine ⟨rfl, fun k hk e => ?_⟩
  obtain rfl : k = 0 := by omega
  simp [withTurns, State.turnAt]

theorem witness_HaltRequestEndsTheRun :
    let s := withTurns (start []) [turn (halt := true)]
    s.runState = .running ∧ s.turn.moves = [] ∧ s.turn.haltRequest = true := by decide

/-- Both sides of the edge. -/
theorem witness_FetchIsBigEndianAndRangeChecked :
    ({ start [] with pc := 0xFFE } : State).pc.toNat < 0xFFF ∧
    (0xFFF ≤ (withTurns { start [] with pc := 0xFFF } [turn]).pc.toNat ∧
      (withTurns { start [] with pc := 0xFFF } [turn]).Ready) := ⟨by decide, by decide, rfl, rfl, rfl⟩

theorem witness_UnhandledWordHaltsCleanly :
    (ready 0x5121).Ready ∧ (ready 0x5121).pc.toNat < 0xFFF ∧
    decode (ready 0x5121).wordAtPc = .error (.unhandled (ready 0x5121).wordAtPc) := ⟨⟨rfl, rfl, rfl⟩, by decide, by decide⟩

/-- A handler halts the machine (stack underflow). -/
theorem witness_TerminalConditionsArePrecise :
    (ready 0x00EE).runState = .running ∧ (ready 0x00EE).turn.moves = [] ∧
    ∃ t, step (ready 0x00EE) = .next t ∧ t.runState = .halted := ⟨rfl, rfl, _, rfl, rfl⟩

theorem witness_KeyWaitStepChangesNothing :
    (ready 0xFF0A).Ready ∧ (ready 0xFF0A).pc.toNat < 0xFFF ∧ decode (ready 0xFF0A).wordAtPc = .ok (.ldVxK 15) ∧
    (ready 0xFF0A).turn.keyReport = none := ⟨⟨rfl, rfl, rfl⟩, by decide, by decide, rfl⟩

/-- The invariant holds of a state other than reset, one that has stored above the font table. -/
theorem witness_InvariantKeptByEveryStep :
    (ready 0x6005).Inv ∧ ∃ t, step (ready 0x6005) = .next t :=
  ⟨⟨by decide, by decide, by decide, by decide⟩, _, rfl⟩

theorem witness_FontTableIsNeverAltered :
    (ready 0x6005).Inv ∧ ∃ t, core.run 1 (ready 0x6005) = .next t :=
  ⟨witness_InvariantKeptByEveryStep.1, _, rfl⟩

/-- A tick due exactly, and one unit short. -/
theorem witness_TimerUpdateCountsDownOnATick :
    State.reset.timerStamp ≤ 16667 ∧ State.reset.env.tickPeriod ≤ 16667 - State.reset.timerStamp ∧
    16666 - State.reset.timerStamp < State.reset.env.tickPeriod := by decide

theorem witness_TimersLoseAtMostOnePerStep :
    (ready 0x00EE).turn.moves = [] ∧ (∀ x, decode (ready 0x00EE).wordAtPc ≠ .ok (.ldDtVx x)) ∧
    (∀ x, decode (ready 0x00EE).wordAtPc ≠ .ok (.ldStVx x)) ∧
    ∃ t, step (ready 0x00EE) = .next t ∧ t.runState = .halted :=
  ⟨rfl, by decide, by decide, _, rfl, rfl⟩

/-- The ends of every range. -/
theorem witness_AccessesAreRangeAndFontChecked :
    0xFFF ≤ 0xFFF ∧ 0xFFF < 0x1000 ∧ 0xFFE + 1 ≤ 0xFFF ∧ 0xFFF < 0xFFF + 1 ∧ 0x04F ≤ 0x04F ∧ 0x04F < 0x050 := by decide

/-- A flag writer that completes; one that is none, its field `x` not 15. -/
theorem witness_FlagRegisterHasItsWriters :
    (∃ t, exec (.addVxVy 0 1) (start []) = .next t ∧ (Instr.addVxVy 0 1).family ∈ flagWriters ∧ t.runState = .running) ∧
    (∃ t, exec (.ldVxMem 14) (start []) = .next t ∧ (Instr.ldVxMem 14).family ∉ flagWriters ∧
      xField (.ldVxMem 14) ≠ some 15) := ⟨⟨_, rfl, by decide, rfl⟩, _, rfl, by decide, by decide⟩

/-- For IndexHasItsWriters, StackHasItsWriters, DisplayHasItsWriters, MemoryHasItsWriters, KeysAndTimersHaveTheirWriters:
one instruction that is none of the writers. -/
theorem witness_HasItsWriters :
    ∃ t, exec (.addVxVy 0 15) (start []) = .next t ∧
      (Instr.addVxVy 0 15).family ∉ [.ldIAddr, .addIVx, .ldFVx] ∧ (Instr.addVxVy 0 15).family ≠ .callAddr ∧
      (Instr.addVxVy 0 15).family ∉ [.callAddr, .ret] ∧ (Instr.addVxVy 0 15).family ∉ [.cls, .drwVxVyN] ∧
      (Instr.addVxVy 0 15).family ∉ [.ldBVx, .ldMemVx] ∧ (Instr.addVxVy 0 15).family ≠ .ldDtVx ∧
      (Instr.addVxVy 0 15).family ≠ .ldStVx :=
  ⟨_, rfl, by decide, by decide, by decide, by decide, by decide, by decide, by decide⟩

/-- A display that changes, so that `dirty` must be set. -/
theorem witness_DisplayHasItsWriters :
    ∃ t, exec .cls { start [] with disp := State.reset.disp.set 0 1, dirty := true } = .next t ∧
      t.disp ≠ State.reset.disp.set 0 1 := ⟨_, rfl, by decide⟩

/-- `RND` in two environments that differ in all but the random byte. -/
theorem witness_InstructionsReadNoOtherInput :
    (State.turn (withTurns (start []) [turn (randByte := 7) (elapsed := 9) (halt := true)])).randByte =
      (withTurns (start []) [turn (randByte := 7)]).turn.randByte ∧
    ∃ t, exec (.rndVxKk 15 0xFF) (withTurns (start []) [turn (randByte := 7)]) = .next t := ⟨rfl, _, rfl⟩

/-- The store of program P5, over the word that comes next: `pc` 0x208, `I` 0x20A, `V[0]` and `V[1]`. -/
theorem witness_StoredCodeIsFetchedNext :
    let s : State := { start [] 0x20A with pc := 0x208 }
    0 + 1 ≤ (1 : Reg).val ∧ 0x050 ≤ s.index.toNat ∧ s.index.toNat + (1 : Reg).val ≤ 0xFFF ∧
    s.index.toNat + 0 = (s.pc.toNat + 2) % 65536 := by decide

theorem witness_RetComesBackAfterCall :
    ({ start [] with sp := 15 } : State).sp.val < 16 ∧
    ∃ t, exec (.callAddr 0xFFF) { start [] with sp := 15 } = .next t ∧ ∃ u : State, u.stack = t.stack ∧ u.sp = t.sp :=
  ⟨by decide, _, rfl, _, rfl, rfl⟩

/-- The longest sprite that ends at 0xFFF, and the empty sprite anywhere. -/
theorem witness_DrawingTwiceRestoresTheDisplay :
    (0 : Reg) ≠ 15 ∧ (14 : Reg) ≠ 15 ∧ (start [] 0xFF1).index.toNat + (15 : BitVec 4).toNat ≤ 0x1000 ∧
    (0 : BitVec 4).toNat = 0 := by decide

/-- The longest sprite that ends at 0xFFF, the empty sprite anywhere, and one byte too many. A pixel under a sprite that
collides, and a byte that is not zero. -/
theorem witness_DrwFlipsTheSpritesPixels :
    (start [] 0xFF1).index.toNat + (15 : BitVec 4).toNat ≤ 0x1000 ∧ (0 : BitVec 4).toNat = 0 ∧
    (1 ≤ (2 : BitVec 4).toNat ∧ 0xFFF < (start [] 0xFFF).index.toNat + (2 : BitVec 4).toNat - 1) ∧
    (let s : State := { start [(0, 63), (1, 31)] 0x000 with disp := State.reset.disp.set 31 (BitVec.twoPow 64 63) }
     s.getPixel 63 31 = true ∧ s.SpriteAt 0 1 15 63 31 ∧ s.peek (s.dataAddr 0) ≠ 0) :=
  ⟨by decide, by decide, by decide, by decide, ⟨0, by decide, 0, by decide, by decide, by decide, by decide⟩, by decide⟩

/-- One entry, all entries, no entry. -/
theorem witness_RetPopsIntoPc :
    ({ start [] with sp := 1 } : State).sp.val = 0 + 1 ∧ ({ start [] with sp := 16 } : State).sp.val = 15 + 1 ∧
    (start []).sp.val = 0 := by decide

theorem witness_CallPushesAndJumps :
    (start []).sp.val < 16 ∧ ({ start [] with sp := 15 } : State).sp.val < 16 ∧
    ({ start [] with sp := 16 } : State).sp.val = 16 := by decide

/-- For AddSetsSumThenCarry, SubtractionsSetDifferenceThenNoBorrow, ShiftsSetResultThenBitShiftedOut: the last register
whose result stays. -/
theorem witness_ResultStaysBelowV15 : (14 : Reg) ≠ 15 := by decide

theorem witness_LdBStoresDecimalDigits :
    (0x050 ≤ (start [] 0x050).index.toNat ∧ (start [] 0x050).index.toNat + 2 ≤ 0xFFF) ∧
    (0x050 ≤ (start [] 0xFFD).index.toNat ∧ (start [] 0xFFD).index.toNat + 2 ≤ 0xFFF) ∧
    0xFFF < (start [] 0xFFE).index.toNat + 2 ∧ (start [] 0x04F).index.toNat ≤ 0x04F := by decide

theorem witness_LdMemStoresRegisters :
    (0x050 ≤ (start [] 0x050).index.toNat ∧ (start [] 0x050).index.toNat + (0 : Reg).val ≤ 0xFFF) ∧
    (0x050 ≤ (start [] 0xFF0).index.toNat ∧ (start [] 0xFF0).index.toNat + (15 : Reg).val ≤ 0xFFF) ∧
    0xFFF < (start [] 0xFF1).index.toNat + (15 : Reg).val ∧ (start [] 0x04F).index.toNat ≤ 0x04F := by decide

theorem witness_LdVxMemLoadsRegisters :
    (start [] 0xFF0).index.toNat + (15 : Reg).val ≤ 0xFFF ∧ 0xFFF < (start [] 0xFF1).index.toNat + (15 : Reg).val := by
  decide

/-- The last key, pressed; the first register value that names no key. -/
theorem witness_KeySkipsTestTheNamedKey :
    (let s : State := { start [(2, 15)] with keys := 0x8000 }
     (s.reg 2).toNat ≤ 15 ∧ s.keys.getLsbD (s.reg 2).toNat = true) ∧
    (let s : State := { start [(2, 16)] with keys := 0xFFFF }
     ¬ ((s.reg 2).toNat ≤ 15 ∧ s.keys.getLsbD (s.reg 2).toNat = true)) := by decide

theorem witness_LdVxKTakesTheReportedKey :
    (withTurns (start []) [turn (keyReport := some 15)]).turn.keyReport = some 15 ∧
    (withTurns (start []) [turn]).turn.keyReport = none := by decide

end Sys2Proof.Tests
end

section
/-! The ports and outputs of 10_state.md section 4: what `set_key` leaves in each bit, what the reads give, and the
statements O10, O11 and O59. -/

namespace Sys2Proof.Machine

/-! ### One rule per port -/

theorem State.setKey_keys_getLsbD (s : State) (index : Nat) (pressed : Bool) {k : Nat} (hk : k < 16) :
    (s.setKey index pressed).keys.getLsbD k = if k = index then pressed else s.keys.getLsbD k := by
  by_cases hi : index ≤ 15
  · rw [State.setKey_keys, if_pos hi]
    obtain rfl | hne := eq_or_ne k index
    · cases pressed <;> simp [hk]
    · cases pressed <;> simp [hk, hne]
  · have hne : k ≠ index := by omega
    rw [State.setKey_keys, if_neg hi, if_neg hne]

theorem State.setKey_of_gt (s : State) {index : Nat} (pressed : Bool) (h : 15 < index) :
    s.setKey index pressed = s := by
  rw [State.setKey, if_neg (by omega)]

theorem State.getPixel_in_range (s : State) {col row : Nat} (hc : col ≤ 63) (hr : row ≤ 31) :
    s.getPixel col row = s.disp[row].getLsbD col :=
  dif_pos ⟨hc, hr⟩

theorem State.getPixel_out_of_range (s : State) {col row : Nat} (h : 63 < col ∨ 31 < row) :
    s.getPixel col row = false :=
  dif_neg (by omega)

theorem State.shouldPlaySound_iff (s : State) : s.shouldPlaySound = true ↔ 0 < s.st.toNat :=
  decide_eq_true_iff

theorem State.running_iff (s : State) : s.running = true ↔ s.runState = .running :=
  beq_iff_eq

/-! ### The statements -/

/-- Settles O10, bit by bit for an index up to 15; above it the state is the same. -/
theorem setKeyWritesOneBit : Obligations.SetKeyWritesOneBit := fun s _ pressed =>
  ⟨fun _ hk => s.setKey_keys_getLsbD _ pressed hk, s.setKey_of_gt pressed, rfl⟩

/-- Settles O11, one rule per port. -/
theorem portsReadPixelSoundAndClearDirty : Obligations.PortsReadPixelSoundAndClearDirty := fun s =>
  ⟨fun _ _ hc hr => s.getPixel_in_range hc hr, fun _ _ h => s.getPixel_out_of_range h, s.shouldPlaySound_iff, rfl⟩

/-- Settles O59: the seven codes are checked one by one, and the coming step stalls where the driver's pass over the
state that the environment's moves leave does. -/
theorem outputsShowStateAndStall : Obligations.OutputsShowStateAndStall := by
  intro s
  refine ⟨s.running_iff, ?_, driverStalls_iff s.envMoves⟩
  rintro c code hmem rfl
  have hcodes : ∀ p ∈ [(Status.ok, 0), (.unhandled, 1), (.haltRequested, 2), (.stackOverflow, 3),
      (.stackUnderflow, 4), (.addressOutOfRange, 5), (.fontWrite, 6)], p.1.code.toNat = p.2 := by decide
  exact hcodes (s.status, code) hmem

end Sys2Proof.Machine
end

section
/-! The access primitives of 20_memory.md R65 and R66: what a read and a store answer on each side of the range test and
of the font test, and statement O27. -/

namespace Sys2Proof.Machine

section Accesses

variable (s : State) {a : Nat}

/-! ### Reads -/

theorem State.readBytes_in_range {n : Nat} (h : a + n ≤ 4096) :
    s.readBytes a n = .ok ((List.range n).map fun k => s.peek (a + k)) := by
  rcases s.readBytes_cases a n with ⟨-, e⟩ | ⟨-, hgt, -⟩
  · exact e
  · omega

theorem State.readBytes_out_of_range {n : Nat} (hn : n ≠ 0) (h : 4096 < a + n) :
    s.readBytes a n = .error .addressOutOfRange := by
  rcases s.readBytes_cases a n with ⟨hle, -⟩ | ⟨-, -, e⟩
  · omega
  · exact e

theorem State.memReadWord_in_range (h : a + 1 ≤ 0xFFF) : s.memReadWord a = .ok (s.peek a ++ s.peek (a + 1)) :=
  if_neg (Nat.not_lt.2 h)

theorem State.memReadWord_out_of_range (h : 0xFFF < a + 1) : s.memReadWord a = .error .addressOutOfRange :=
  if_pos h

/-- The first byte of a joined pair is the high one. -/
theorem toNat_append_byte (hi lo : Byte) : (hi ++ lo).toNat = hi.toNat * 256 + lo.toNat := by
  rw [BitVec.toNat_append, ← Nat.shiftLeft_add_eq_or_of_lt lo.isLt, Nat.shiftLeft_eq]

/-! ### Stores -/

theorem State.storeBytes_in_range {bs : List Byte} (hlow : 80 ≤ a) (h : a + bs.length ≤ 4096) :
    s.storeBytes a bs = .ok { s with mem := Memory.writeBytes s.mem a bs } := by
  rcases s.storeBytes_cases a bs with ⟨-, e⟩ | ⟨-, hgt, -⟩ | ⟨-, -, hfont, -⟩
  · exact e
  · omega
  · omega

theorem State.storeBytes_out_of_range {bs : List Byte} (hne : bs ≠ []) (h : 4096 < a + bs.length) :
    s.storeBytes a bs = .error .addressOutOfRange := by
  rcases s.storeBytes_cases a bs with ⟨hnil | ⟨hle, -⟩, -⟩ | ⟨-, -, e⟩ | ⟨-, hle, -, -⟩
  · exact absurd hnil hne
  · omega
  · exact e
  · omega

theorem State.storeBytes_font {bs : List Byte} (hne : bs ≠ []) (h : a + bs.length ≤ 4096) (hfont : a < 80) :
    s.storeBytes a bs = .error .fontWrite := by
  rcases s.storeBytes_cases a bs with ⟨hnil | ⟨-, hlow⟩, -⟩ | ⟨-, hgt, -⟩ | ⟨-, -, -, e⟩
  · exact absurd hnil hne
  · omega
  · omega
  · exact e

/-- A store of one byte in range and above the font table writes that byte, and no other. -/
theorem State.storeByte_in_range (v : Byte) (hlow : 80 ≤ a) (h : a < 4096) :
    ∃ t, s.storeBytes a [v] = .ok t ∧ t.peek a = v ∧ (∀ b, b ≠ a → t.peek b = s.peek b) ∧
      t = { s with mem := t.mem } :=
  ⟨_, s.storeBytes_in_range hlow h, s.peek_writeBytes_inside a [v] 0 Nat.one_pos,
    fun b hb => s.peek_writeBytes_outside a [v] b (hb.lt_or_gt.imp_right Nat.succ_le_of_lt), rfl⟩

end Accesses

/-! ### The statement -/

/-- Settles O27, clause by clause from the rule of each access on its side of the two tests. -/
theorem accessesAreRangeAndFontChecked : Obligations.AccessesAreRangeAndFontChecked := by
  intro s a v
  refine ⟨fun h => ?_, fun h => ?_, fun h => ?_, s.memReadWord_out_of_range, fun h => ?_, fun h => ?_, fun hlow h => ?_⟩
  · exact s.readBytes_in_range (Nat.succ_le_succ h)
  · exact s.readBytes_out_of_range Nat.one_ne_zero (Nat.succ_lt_succ h)
  · exact ⟨_, s.memReadWord_in_range h, toNat_append_byte _ _⟩
  · exact s.storeBytes_out_of_range (List.cons_ne_nil v []) (Nat.succ_lt_succ h)
  · exact s.storeBytes_font (List.cons_ne_nil v []) (show a + 1 ≤ 4096 by omega) (by omega)
  · exact s.storeByte_in_range v hlow (Nat.lt_succ_of_le h)

end Sys2Proof.Machine
end

section
/-! The driver's pass of 40_engine.md R100, one rule per way it can end for a running machine, and the statements O16,
O17, O18 and O20 about a halt request, the fetch, an unhandled word and a key wait. -/

namespace Sys2Proof.Machine

variable {s : State}

/-! ### The fetch -/

theorem State.fetch_below_end (h : s.pc.toNat < 0xFFF) : s.fetch = .ok s.wordAtPc :=
  s.memReadWord_in_range h

theorem State.fetch_at_end (h : 0xFFF ≤ s.pc.toNat) : s.fetch = .error .addressOutOfRange :=
  s.memReadWord_out_of_range (Nat.lt_succ_of_le h)

theorem State.wordAtPc_toNat (s : State) :
    s.wordAtPc.toNat = (s.peek s.pc.toNat).toNat * 256 + (s.peek (s.pc.toNat + 1)).toNat :=
  toNat_append_byte _ _

/-! ### The driver's pass, in the order of its tests -/

section Driver

variable (hrun : s.runState = .running)
include hrun

theorem driverStep_of_haltRequest (hreq : s.turn.haltRequest = true) :
    driverStep s = .next (s.halt .haltRequested) := by
  simp [driverStep, hrun, hreq]

variable (hreq : s.turn.haltRequest = false)
include hreq

theorem driverStep_of_fetch_error {c : Status} (hf : s.fetch = .error c) : driverStep s = .next (s.halt c) := by
  simp [driverStep, hrun, hreq, hf]

variable (hpc : s.pc.toNat < 0xFFF)
include hpc

theorem driverStep_of_decode_error {r : Reject} (hd : decode s.wordAtPc = .error r) :
    driverStep s = .next (s.halt .unhandled) := by
  simp [driverStep, hrun, hreq, State.fetch_below_end hpc, hd]

theorem driverStep_of_decode_ok {i : Instr} {t : State} (hd : decode s.wordAtPc = .ok i) (he : exec i s = .next t) :
    driverStep s = .next (afterHandler i s t) := by
  simp [driverStep, hrun, hreq, State.fetch_below_end hpc, hd, he]

end Driver

/-! ### The step, where the environment makes no move -/

theorem step_of_driverStep {t : State} (hm : s.turn.moves = []) (h : driverStep s = .next t) :
    step s = .next t.endTurn :=
  step_eq_next ((State.envMoves_of_nil hm).symm ▸ h)

theorem step_halts_of_driverStep {c : Status} (hm : s.turn.moves = []) (h : driverStep s = .next (s.halt c)) :
    ∃ t, step s = .next t ∧ StepHaltsWith c s t :=
  ⟨_, step_of_driverStep hm h, rfl⟩

/-! ### The key wait -/

theorem exec_ldVxK_of_noKey (x : Reg) (hk : s.turn.keyReport = none) : exec (.ldVxK x) s = .next s := by
  rw [exec, execLdVxK, hk]

theorem stalls_ldVxK_of_noKey (x : Reg) (hk : s.turn.keyReport = none) : stalls (.ldVxK x) s = true := by
  rw [stalls, hk, Option.isNone_none]

/-- A stalled instruction is followed by no timer update (40_engine.md R109). -/
theorem afterHandler_of_stalls {i : Instr} (t : State) (h : stalls i s = true) : afterHandler i s t = t := by
  simp [afterHandler, h]

/-! ### The statements -/

/-- Settles O16: the driver tests the request before it fetches. -/
theorem haltRequestEndsTheRun : Obligations.HaltRequestEndsTheRun := fun _ hrun hm hreq =>
  step_halts_of_driverStep hm (driverStep_of_haltRequest hrun hreq)

/-- Settles O17: on each side of the edge, the fetch's own rule. -/
theorem fetchIsBigEndianAndRangeChecked : Obligations.FetchIsBigEndianAndRangeChecked := by
  refine fun s => ⟨fun hpc => ⟨s.wordAtPc, State.fetch_below_end hpc, s.wordAtPc_toNat⟩, ?_⟩
  rintro hpc ⟨hrun, hm, hreq⟩
  exact step_halts_of_driverStep hm (driverStep_of_fetch_error hrun hreq (State.fetch_at_end hpc))

/-- Settles O18: no handler runs, so nothing but the halt is left of the driver's pass. -/
theorem unhandledWordHaltsCleanly : Obligations.UnhandledWordHaltsCleanly := by
  rintro s ⟨hrun, hm, hreq⟩ hpc hd
  exact step_halts_of_driverStep hm (driverStep_of_decode_error hrun hreq hpc hd)

/-- Settles O20: the handler answers the state it was given and the timer update is left out, so only the turn ends. -/
theorem keyWaitStepChangesNothing : Obligations.KeyWaitStepChangesNothing := by
  rintro s x ⟨hrun, hm, hreq⟩ hpc hd hk
  have hpass : driverStep s = .next s := by
    rw [driverStep_of_decode_ok hrun hreq hpc hd (exec_ldVxK_of_noKey x hk),
      afterHandler_of_stalls s (stalls_ldVxK_of_noKey x hk)]
  have hwait : driverStalls s = true := (driverStalls_iff s).2 ⟨hrun, hreq, hpc, hk, x, hd⟩
  exact ⟨step_of_driverStep hm hpass, by rw [State.waitingForKey, State.envMoves_of_nil hm, hwait]⟩

end Sys2Proof.Machine
end

section
/-! The display as the pixel port shows it (10_state.md section 4), and statement O38 about `CLS` (41_display.md R120). -/

namespace Sys2Proof.Machine

theorem advances_of_pc {s t : State} (h : t.pc = s.pc + 2) : Advances s t := by
  rw [Advances, h, BitVec.toNat_add]
  rfl

theorem State.getPixel_eq_true_iff (s : State) (col row : Nat) :
    s.getPixel col row = true ↔ ∃ h : row < 32, s.disp[row].getLsbD col = true := by
  by_cases hin : col ≤ 63 ∧ row ≤ 31
  · obtain ⟨hc, hr⟩ := hin
    rw [s.getPixel_in_range hc hr, exists_prop_of_true (Nat.lt_succ_of_le hr)]
  · rw [s.getPixel_out_of_range (by omega)]
    refine iff_of_false Bool.false_ne_true fun ⟨hr, hp⟩ => ?_
    have hc : col < 64 := BitVec.lt_of_getLsbD hp
    omega

theorem State.anyPixelSet_disp_iff (s : State) :
    anyPixelSet s.disp = true ↔ ∃ col row, s.getPixel col row = true := by
  simp only [anyPixelSet_iff, s.getPixel_eq_true_iff]

theorem State.getPixel_of_blank {s : State} (h : s.disp = Vector.replicate 32 0) (col row : Nat) :
    s.getPixel col row = false := by
  rw [← Bool.not_eq_true, s.getPixel_eq_true_iff]
  simp [h]

/-- Settles O38: the display is blank, and `dirty` takes in `anyPixelSet` of the display before. -/
theorem clsClearsTheDisplay : Obligations.ClsClearsTheDisplay := by
  intro s
  have hdirty : (s.dirty || anyPixelSet s.disp) = true ↔ s.dirty = true ∨ ∃ col row, s.getPixel col row = true := by
    rw [Bool.or_eq_true, s.anyPixelSet_disp_iff]
  exact ⟨_, rfl, State.getPixel_of_blank rfl, hdirty, advances_of_pc rfl, fun _ _ => rfl, rfl, fun _ => rfl,
    ⟨rfl, rfl⟩, ⟨rfl, rfl, rfl⟩, ⟨rfl, rfl⟩, ⟨rfl, rfl⟩⟩

end Sys2Proof.Machine
end

section
/-! The stack and the jumps (42_stack_jump.md): push and pop on each side of their tests, what `RET` and `CALL` do there,
and the statements O40 to O43. -/

namespace Sys2Proof.Machine

variable {s : State}

/-! ### Addresses as values of `pc` -/

theorem addrWord_toNat (nnn : BitVec 12) : (addrWord nnn).toNat = nnn.toNat :=
  BitVec.toNat_setWidth_of_le (by decide)

theorem byteWord_toNat (b : Byte) : (byteWord b).toNat = b.toNat :=
  BitVec.toNat_setWidth_of_le (by decide)

/-- The largest sum, 0xFFF + 0xFF, stays below 65536, so nothing of it is lost in `pc`. -/
theorem addrWord_add_byteWord_toNat (nnn : BitVec 12) (b : Byte) :
    (addrWord nnn + byteWord b).toNat = nnn.toNat + b.toNat := by
  have hn : nnn.toNat < 4096 := nnn.isLt
  have hb : b.toNat < 256 := b.isLt
  rw [BitVec.toNat_add, addrWord_toNat, byteWord_toNat, Nat.mod_eq_of_lt (by omega)]

theorem writesOnlyPc_setPc (s : State) (w : Word) : WritesOnlyPc s (s.setPc w) :=
  ⟨fun _ _ => rfl, rfl, fun _ => rfl, ⟨rfl, rfl⟩, ⟨rfl, rfl, rfl⟩, ⟨rfl, rfl⟩, ⟨rfl, rfl⟩, ⟨rfl, rfl⟩⟩

/-! ### Push and pop on each side of their tests -/

theorem State.pop_of_succ {d : Nat} (hd : d < 16) (h : s.sp.val = d + 1) :
    s.pop = .ok (s.stack[d], { s with sp := ⟨d, Nat.lt_succ_of_lt hd⟩ }) := by
  obtain ⟨-, e⟩ := s.pop_cases.resolve_right (by omega)
  simpa only [h, Nat.add_sub_cancel] using e

theorem State.pop_of_empty (h : s.sp.val = 0) : s.pop = .error .stackUnderflow :=
  (s.pop_cases.resolve_left fun hne => hne.1 h).2

theorem State.push_of_lt (w : Word) (h : s.sp.val < 16) :
    s.push w = .ok { s with stack := s.stack.set s.sp.val w, sp := ⟨s.sp.val + 1, Nat.succ_lt_succ h⟩ } := by
  obtain ⟨_, e⟩ := (s.push_cases w).resolve_right (by omega)
  exact e

theorem State.push_of_full (w : Word) (h : s.sp.val = 16) : s.push w = .error .stackOverflow :=
  ((s.push_cases w).resolve_left fun ⟨hlt, _⟩ => by omega).2

/-! ### `RET` and `CALL` -/

theorem exec_ret_of_pop_ok {w : Word} {t : State} (h : s.pop = .ok (w, t)) : exec .ret s = .next (t.setPc w) := by
  rw [exec, execRet, h]
  rfl

theorem exec_ret_of_pop_error {c : Status} (h : s.pop = .error c) : exec .ret s = .next (s.halt c) := by
  rw [exec, execRet, h]
  rfl

theorem exec_callAddr_of_push_ok (nnn : BitVec 12) {t : State} (h : s.push (s.pc + 2) = .ok t) :
    exec (.callAddr nnn) s = .next (t.setPc (addrWord nnn)) := by
  rw [exec, execCallAddr, h]
  rfl

theorem exec_callAddr_of_push_error (nnn : BitVec 12) {c : Status} (h : s.push (s.pc + 2) = .error c) :
    exec (.callAddr nnn) s = .next (s.halt c) := by
  rw [exec, execCallAddr, h]
  rfl

/-! ### The statements -/

/-- Settles O40: by the two sides of the pop. -/
theorem retPopsIntoPc : Obligations.RetPopsIntoPc := by
  refine fun s => ⟨fun d hd hsp => ?_, fun hempty => ?_⟩
  · exact ⟨_, exec_ret_of_pop_ok (State.pop_of_succ hd hsp), rfl, rfl, rfl, fun _ _ => rfl, rfl, fun _ => rfl,
      ⟨rfl, rfl, rfl⟩, ⟨rfl, rfl⟩, ⟨rfl, rfl⟩, ⟨rfl, rfl⟩⟩
  · exact ⟨_, exec_ret_of_pop_error (State.pop_of_empty hempty), rfl⟩

/-- Settles O41: a 12-bit address keeps its value in `pc`. -/
theorem jpSetsPc : Obligations.JpSetsPc := fun s nnn =>
  ⟨_, rfl, addrWord_toNat nnn, writesOnlyPc_setPc s _⟩

/-- Settles O42: by the two sides of the push, which writes the one entry at `SP`. -/
theorem callPushesAndJumps : Obligations.CallPushesAndJumps := by
  refine fun s nnn => ⟨fun h => ?_, fun hfull => ?_⟩
  · have hpushed : (s.stack.set s.sp.val (s.pc + 2))[s.sp.val].toNat = (s.pc.toNat + 2) % 65536 := by
      rw [Vector.getElem_set_self, BitVec.toNat_add]
      rfl
    have hothers : ∀ k (hk : k < 16), k ≠ s.sp.val → (s.stack.set s.sp.val (s.pc + 2))[k] = s.stack[k] :=
      fun k hk hne => Vector.getElem_set_ne h hk hne.symm
    exact ⟨_, exec_callAddr_of_push_ok nnn (State.push_of_lt _ h), addrWord_toNat nnn, rfl, hpushed, hothers,
      fun _ _ => rfl, rfl, fun _ => rfl, ⟨rfl, rfl, rfl⟩, ⟨rfl, rfl⟩, ⟨rfl, rfl⟩, ⟨rfl, rfl⟩⟩
  · exact ⟨_, exec_callAddr_of_push_error nnn (State.push_of_full _ hfull), rfl⟩

/-- Settles O43: the sum fits in `pc`. -/
theorem jpV0AddsV0 : Obligations.JpV0AddsV0 := fun s nnn =>
  ⟨_, rfl, addrWord_add_byteWord_toNat nnn (s.reg 0), writesOnlyPc_setPc s _⟩

end Sys2Proof.Machine
end

section
/-! The skip instructions (43_skip.md): what `skipIf` writes, for any condition, and statement O44. -/

namespace Sys2Proof.Machine

theorem State.skipIf_pc_toNat (s : State) (c : Bool) :
    (s.skipIf c).pc.toNat = (s.pc.toNat + if c then 4 else 2) % 65536 := by
  cases c
  · exact BitVec.toNat_add s.pc 2
  · exact BitVec.toNat_add s.pc 4

theorem writesOnlyPc_skipIf (s : State) (c : Bool) : WritesOnlyPc s (s.skipIf c) :=
  writesOnlyPc_setPc s _

/-- What a skip does, with the instruction's condition given as a proposition that the tested Boolean decides. -/
theorem exec_moves_pc_of_skipIf {s : State} {i : Instr} {c : Bool} {p : Prop} [Decidable p]
    (h : exec i s = .next (s.skipIf c)) (hc : c = true ↔ p) :
    ∃ t, exec i s = .next t ∧ WritesOnlyPc s t ∧ t.pc.toNat = (s.pc.toNat + if p then 4 else 2) % 65536 := by
  refine ⟨_, h, writesOnlyPc_skipIf s c, ?_⟩
  rw [s.skipIf_pc_toNat, if_congr hc rfl rfl]

/-- Settles O44: each of the four is a `skipIf`, and its Boolean test decides the stated comparison. -/
theorem compareSkipsMovePcByFourOrTwo : Obligations.CompareSkipsMovePcByFourOrTwo := fun _ _ _ _ =>
  ⟨exec_moves_pc_of_skipIf rfl beq_iff_eq, exec_moves_pc_of_skipIf rfl bne_iff_ne,
    exec_moves_pc_of_skipIf rfl beq_iff_eq, exec_moves_pc_of_skipIf rfl bne_iff_ne⟩

end Sys2Proof.Machine
end

section
/-! The register and arithmetic instructions (44_alu.md): what a write of `V[x]`, alone or with the flag after it, leaves
unchanged, the values of the flags, and the statements O45 to O51. -/

namespace Sys2Proof.Machine

variable {s : State} {i : Instr} {x : Reg} {b : Byte} {f : Bool}

/-! ### The two writes: `V[x]` alone, and `V[x]` then `V[15]` -/

theorem writesOnlyRegs_setReg (s : State) (x : Reg) (b : Byte) : WritesOnlyRegs [x] s (s.setReg x b).advance :=
  ⟨advances_of_pc rfl, fun _ hr => s.setReg_reg_ne b (List.ne_of_not_mem_cons hr), rfl, fun _ => rfl, ⟨rfl, rfl⟩,
    ⟨rfl, rfl, rfl⟩, ⟨rfl, rfl⟩, ⟨rfl, rfl⟩, ⟨rfl, rfl⟩⟩

theorem State.setResultThenFlag_reg_flag (s : State) (x : Reg) (b : Byte) (f : Bool) :
    (s.setResultThenFlag x b f).reg 15 = flagByte f :=
  State.setReg_reg_self ..

theorem State.setResultThenFlag_reg_result (s : State) (b : Byte) (f : Bool) (hx : x ≠ 15) :
    (s.setResultThenFlag x b f).reg x = b := by
  rw [s.setResultThenFlag_reg, if_neg hx, if_pos rfl]

theorem State.setResultThenFlag_reg_other (s : State) (b : Byte) (f : Bool) {q : Reg} (hq : q ∉ [x, 15]) :
    (s.setResultThenFlag x b f).reg q = s.reg q := by
  obtain ⟨hx, h15⟩ : q ≠ x ∧ q ≠ 15 := by simpa using hq
  rw [s.setResultThenFlag_reg, if_neg h15, if_neg hx]

theorem writesOnlyRegs_setResultThenFlag (s : State) (x : Reg) (b : Byte) (f : Bool) :
    WritesOnlyRegs [x, 15] s (s.setResultThenFlag x b f).advance :=
  ⟨advances_of_pc rfl, fun _ => s.setResultThenFlag_reg_other b f, rfl, fun _ => rfl, ⟨rfl, rfl⟩, ⟨rfl, rfl, rfl⟩,
    ⟨rfl, rfl⟩, ⟨rfl, rfl⟩, ⟨rfl, rfl⟩⟩

/-! ### Values of results and flags -/

theorem flagByte_toNat (f : Bool) : (flagByte f).toNat = f.toNat := by
  cases f <;> rfl

theorem carry_toNat (a b : Byte) : (carry a b).toNat = if 255 < a.toNat + b.toNat then 1 else 0 :=
  Bool.cond_decide ..

theorem noBorrow_toNat (a b : Byte) : (noBorrow a b).toNat = if b.toNat ≤ a.toNat then 1 else 0 :=
  Bool.cond_decide ..

theorem shiftedOutRight_toNat (a : Byte) : (shiftedOutRight a).toNat = a.toNat % 2 := by
  rw [shiftedOutRight, BitVec.getLsbD, Nat.toNat_testBit, pow_zero, Nat.div_one]

theorem shiftedOutLeft_toNat (a : Byte) : (shiftedOutLeft a).toNat = a.toNat / 128 := by
  have ha : a.toNat < 256 := a.isLt
  rw [shiftedOutLeft, BitVec.getLsbD, Nat.toNat_testBit]
  omega

theorem shiftRight_one_toNat (a : Byte) : (a >>> 1).toNat = a.toNat / 2 := by
  rw [BitVec.toNat_ushiftRight, Nat.shiftRight_one]

theorem shiftLeft_one_toNat (a : Byte) : (a <<< 1).toNat = 2 * a.toNat % 256 := by
  rw [BitVec.toNat_shiftLeft, Nat.shiftLeft_eq, pow_one, Nat.mul_comm]

/-- Byte subtraction is the integer difference modulo 256 (44_alu.md R163). -/
theorem sub_toNat_int (a b : Byte) : ((a - b).toNat : Int) = ((a.toNat : Int) - b.toNat) % 256 := by
  have hb : b.toNat < 256 := b.isLt
  rw [BitVec.toNat_sub]
  omega

/-! ### What an instruction does that makes one of the two writes -/

theorem exec_writes_bits {g : Nat → Bool} (h : exec i s = .next (s.setReg x b).advance)
    (hb : ∀ k, b.getLsbD k = g k) :
    ∃ t, exec i s = .next t ∧ WritesOnlyRegs [x] s t ∧ ∀ k, (t.reg x).getLsbD k = g k := by
  refine ⟨_, h, writesOnlyRegs_setReg s x b, fun k => ?_⟩
  rw [State.advance_reg, State.setReg_reg_self, hb]

theorem exec_writes_result_then_flag {m n : Nat} (h : exec i s = .next (s.setResultThenFlag x b f).advance)
    (hb : b.toNat = m) (hf : f.toNat = n) :
    ∃ t, exec i s = .next t ∧ WritesOnlyRegs [x, 15] s t ∧
      (x ≠ 15 → (t.reg x).toNat = m) ∧ (t.reg 15).toNat = n := by
  refine ⟨_, h, writesOnlyRegs_setResultThenFlag s x b f, fun hx => ?_, ?_⟩
  · rw [State.advance_reg, s.setResultThenFlag_reg_result b f hx, hb]
  · rw [State.advance_reg, s.setResultThenFlag_reg_flag, flagByte_toNat, hf]

/-- `SUB` and `SUBN` differ only in which register holds the minuend `a`. -/
theorem exec_writes_difference_then_noBorrow {a b : Byte}
    (h : exec i s = .next (s.setResultThenFlag x (a - b) (noBorrow a b)).advance) :
    ∃ t, exec i s = .next t ∧ WritesOnlyRegs [x, 15] s t ∧
      (x ≠ 15 → ((t.reg x).toNat : Int) = ((a.toNat : Int) - b.toNat) % 256) ∧
      (t.reg 15).toNat = if b.toNat ≤ a.toNat then 1 else 0 := by
  obtain ⟨t, ht, hframe, hresult, hflag⟩ := exec_writes_result_then_flag h rfl (noBorrow_toNat a b)
  exact ⟨t, ht, hframe, fun hx => by rw [hresult hx, sub_toNat_int], hflag⟩

/-! ### The statements -/

/-- Settles O45: each load writes the one register. -/
theorem loadsCopyIntoVx : Obligations.LoadsCopyIntoVx := fun s x _ _ =>
  ⟨⟨_, rfl, s.setReg_reg_self x _, writesOnlyRegs_setReg s x _⟩,
    ⟨_, rfl, s.setReg_reg_self x _, writesOnlyRegs_setReg s x _⟩⟩

/-- Settles O46: byte addition drops the carry, and `V[x]` is the one register written. -/
theorem addImmediateWrapsWithoutFlag : Obligations.AddImmediateWrapsWithoutFlag := by
  refine fun s x kk => ⟨_, rfl, ?_, writesOnlyRegs_setReg s x _⟩
  rw [State.advance_reg, State.setReg_reg_self, BitVec.toNat_add]

/-- Settles O47: the operations on bytes are bitwise, and `V[x]` is the one register written. -/
theorem logicCombinesBitsWithoutFlag : Obligations.LogicCombinesBitsWithoutFlag := fun _ _ _ =>
  ⟨exec_writes_bits rfl fun _ => BitVec.getLsbD_or, exec_writes_bits rfl fun _ => BitVec.getLsbD_and,
    exec_writes_bits rfl fun _ => BitVec.getLsbD_xor⟩

/-- Settles O48: the flag is the later write, so that `V[15]` is the carry for `x` = 15 too. -/
theorem addSetsSumThenCarry : Obligations.AddSetsSumThenCarry := fun _ _ _ =>
  exec_writes_result_then_flag rfl (BitVec.toNat_add ..) (carry_toNat ..)

/-- Settles O49: the two subtractions are one, with the operands exchanged. -/
theorem subtractionsSetDifferenceThenNoBorrow : Obligations.SubtractionsSetDifferenceThenNoBorrow := fun _ _ _ =>
  ⟨exec_writes_difference_then_noBorrow rfl, exec_writes_difference_then_noBorrow rfl⟩

/-- Settles O50: a shift by one is a half or a double, and bit 0 or bit 7 is the remainder or the quotient that it
loses. -/
theorem shiftsSetResultThenBitShiftedOut : Obligations.ShiftsSetResultThenBitShiftedOut := fun _ _ _ =>
  ⟨exec_writes_result_then_flag rfl (shiftRight_one_toNat _) (shiftedOutRight_toNat _),
    exec_writes_result_then_flag rfl (shiftLeft_one_toNat _) (shiftedOutLeft_toNat _)⟩

/-- Settles O51: the mask is a bitwise conjunction, whatever byte the turn gives. -/
theorem rndMasksTheRandomByte : Obligations.RndMasksTheRandomByte := fun _ _ _ =>
  exec_writes_bits rfl fun _ => BitVec.getLsbD_and

end Sys2Proof.Machine
end

section
/-! The index-register and memory instructions (45_index_memory.md): what a write of `I`, a block of stores from `I` on and
a load of registers from `I` on leave behind, on each side of the access tests, and the statements O52 to O55. -/

namespace Sys2Proof.Machine

variable {s : State} {i : Instr}

/-! ### Writes of `I` -/

/-- The largest glyph address, 5 * 255, fits in `I` (45_index_memory.md R172). -/
theorem glyphAddr_toNat (v : Byte) : (glyphAddr v).toNat = 5 * v.toNat := by
  have hv : v.toNat < 256 := v.isLt
  rw [glyphAddr, BitVec.toNat_ofNat, Nat.mod_eq_of_lt (by omega)]

theorem add_byteWord_toNat (w : Word) (b : Byte) : (w + byteWord b).toNat = (w.toNat + b.toNat) % 65536 := by
  rw [BitVec.toNat_add, byteWord_toNat]

theorem exec_writes_index {w : Word} {n : Nat} (h : exec i s = .next (s.setIndex w).advance) (hw : w.toNat = n) :
    ∃ t, exec i s = .next t ∧ t.index.toNat = n ∧
      Advances s t ∧ SameRegsBut [] s t ∧ SameMemory s t ∧ SameBesides s t :=
  ⟨_, h, hw, advances_of_pc rfl, fun _ _ => rfl, fun _ => rfl, ⟨rfl, rfl⟩, ⟨rfl, rfl, rfl⟩, ⟨rfl, rfl⟩, ⟨rfl, rfl⟩,
    ⟨rfl, rfl⟩⟩

/-! ### The bytes that the two stores write -/

theorem State.regsUpTo_ne_nil (s : State) (x : Reg) : s.regsUpTo x ≠ [] :=
  List.ne_nil_of_length_eq_add_one (s.regsUpTo_length x)

theorem decimalDigits_ne_nil (v : Byte) : decimalDigits v ≠ [] :=
  List.cons_ne_nil _ _

@[simp] theorem decimalDigits_length (v : Byte) : (decimalDigits v).length = 3 := rfl

/-- A decimal digit of a byte is a byte, so that storing it loses nothing. -/
theorem decimalDigits_getElem_toNat (v : Byte) :
    (decimalDigits v)[0].toNat = v.toNat / 100 ∧ (decimalDigits v)[1].toNat = v.toNat / 10 % 10 ∧
      (decimalDigits v)[2].toNat = v.toNat % 10 := by
  have hv : v.toNat < 256 := v.isLt
  have hbyte {n : Nat} (h : n < 256) : (BitVec.ofNat 8 n).toNat = n := by rw [BitVec.toNat_ofNat, Nat.mod_eq_of_lt h]
  exact ⟨hbyte (by omega), hbyte (by omega), hbyte (by omega)⟩

/-! ### An instruction that stores bytes from `I` on -/

section Stores

variable {bs : List Byte} (hexec : exec i s = .next (s.orHalt ((s.storeBytes (s.dataAddr 0) bs).map State.advance)))
include hexec

theorem exec_stores_in_range (hlow : 0x050 ≤ s.index.toNat) (hend : s.index.toNat + bs.length ≤ 4096) :
    ∃ t, exec i s = .next t ∧
      (∀ k (hk : k < bs.length), t.peek (s.dataAddr k) = bs[k]) ∧
      (∀ a, a < s.dataAddr 0 ∨ s.dataAddr bs.length ≤ a → t.peek a = s.peek a) ∧
      Advances s t ∧ SameRegsBut [] s t ∧ t.index = s.index ∧ SameBesides s t := by
  rw [s.storeBytes_in_range (a := s.dataAddr 0) hlow hend] at hexec
  exact ⟨_, hexec, s.peek_writeBytes_inside _ bs, s.peek_writeBytes_outside _ bs, advances_of_pc rfl, fun _ _ => rfl, rfl,
    ⟨rfl, rfl⟩, ⟨rfl, rfl, rfl⟩, ⟨rfl, rfl⟩, ⟨rfl, rfl⟩, ⟨rfl, rfl⟩⟩

theorem exec_stores_out_of_range (hne : bs ≠ []) (hend : 4096 < s.index.toNat + bs.length) :
    ∃ t, exec i s = .next t ∧ HaltsWith .addressOutOfRange s t := by
  rw [s.storeBytes_out_of_range (a := s.dataAddr 0) hne hend] at hexec
  exact ⟨_, hexec, rfl⟩

/-- The stores of one instruction are too few to reach from the font table to the end of memory, so that the range test,
which comes first, passes. -/
theorem exec_stores_font (hne : bs ≠ []) (hlen : bs.length ≤ 16) (hfont : s.index.toNat ≤ 0x04F) :
    ∃ t, exec i s = .next t ∧ HaltsWith .fontWrite s t := by
  have hend : s.dataAddr 0 + bs.length ≤ 4096 := show s.index.toNat + bs.length ≤ 4096 by omega
  rw [s.storeBytes_font hne hend (Nat.lt_succ_of_le hfont)] at hexec
  exact ⟨_, hexec, rfl⟩

end Stores

/-! ### `LD Vx,[I]` -/

theorem State.loadRegs_range_reg_of_le (s : State) {x k : Reg} (f : Nat → Byte) (hk : k ≤ x) :
    (s.loadRegs 0 ((List.range (x.val + 1)).map f)).reg k = f k.val := by
  rw [s.loadRegs_reg _ _ (by simp), dif_pos (by simpa using Nat.lt_succ_of_le hk)]
  simp

theorem State.loadRegs_range_reg_of_gt (s : State) {x k : Reg} (f : Nat → Byte) (hk : x < k) :
    (s.loadRegs 0 ((List.range (x.val + 1)).map f)).reg k = s.reg k := by
  rw [s.loadRegs_reg _ _ (by simp), dif_neg (by simpa using Nat.succ_le_of_lt hk)]

/-- No part of the state but the registers and `pc` is written: `I` keeps its value too (45_index_memory.md R176). -/
theorem State.loadRegs_advance_frame (s : State) (k : Nat) (bs : List Byte) :
    Advances s (s.loadRegs k bs).advance ∧ (s.loadRegs k bs).advance.index = s.index ∧
      SameMemory s (s.loadRegs k bs).advance ∧ SameBesides s (s.loadRegs k bs).advance := by
  rw [s.loadRegs_eq]
  exact ⟨advances_of_pc rfl, rfl, fun _ => rfl, ⟨rfl, rfl⟩, ⟨rfl, rfl, rfl⟩, ⟨rfl, rfl⟩, ⟨rfl, rfl⟩, ⟨rfl, rfl⟩⟩

theorem exec_ldVxMem_in_range {x : Reg} (h : s.index.toNat + x.val ≤ 0xFFF) :
    exec (.ldVxMem x) s =
      .next (s.loadRegs 0 ((List.range (x.val + 1)).map fun k => s.peek (s.dataAddr k))).advance := by
  rw [exec, execLdVxMem, s.readBytes_in_range (a := s.dataAddr 0) (Nat.succ_le_succ h)]
  rfl

theorem exec_ldVxMem_out_of_range {x : Reg} (h : 0xFFF < s.index.toNat + x.val) :
    exec (.ldVxMem x) s = .next (s.halt .addressOutOfRange) := by
  rw [exec, execLdVxMem, s.readBytes_out_of_range (a := s.dataAddr 0) x.val.succ_ne_zero (Nat.succ_lt_succ h)]
  rfl

/-! ### The statements -/

/-- Settles O52: the three are one write of `I`, and only the sum of `ADD I,Vx` can wrap. -/
theorem indexInstructionsWriteIndex : Obligations.IndexInstructionsWriteIndex := fun _ _ _ =>
  ⟨exec_writes_index rfl (addrWord_toNat _), exec_writes_index rfl (add_byteWord_toNat _ _),
    exec_writes_index rfl (glyphAddr_toNat _)⟩

/-- Settles O53: the three digits are the bytes of a block of stores, which the access tests let through or not. -/
theorem ldBStoresDecimalDigits : Obligations.LdBStoresDecimalDigits := by
  refine fun s x => ⟨fun hlow hend => ?_, fun hend => ?_, fun hfont => ?_⟩
  · obtain ⟨t, ht, hin, hout, hframe⟩ :=
      exec_stores_in_range (i := .ldBVx x) (bs := decimalDigits (s.reg x)) rfl hlow (Nat.succ_le_succ hend)
    obtain ⟨hhundreds, htens, hones⟩ := decimalDigits_getElem_toNat (s.reg x)
    refine ⟨t, ht, ?_, ?_, ?_, hout, hframe⟩
    · rw [hin 0 (by simp), hhundreds]
    · rw [hin 1 (by simp), htens]
    · rw [hin 2 (by simp), hones]
  · exact exec_stores_out_of_range rfl (decimalDigits_ne_nil _) (Nat.succ_lt_succ hend)
  · exact exec_stores_font rfl (decimalDigits_ne_nil _) (by simp) hfont

/-- Settles O54: the stored block is `V[0]` to `V[x]`, one byte longer than `x`. -/
theorem ldMemStoresRegisters : Obligations.LdMemStoresRegisters := by
  intro s x
  have hlen := s.regsUpTo_length x
  refine ⟨fun hlow hend => ?_, fun hend => ?_, fun hfont => ?_⟩
  · obtain ⟨t, ht, hin, hout, hframe⟩ :=
      exec_stores_in_range (i := .ldMemVx x) (bs := s.regsUpTo x) rfl hlow (by omega)
    refine ⟨t, ht, fun k hk => ?_, fun a ha => hout a ?_, hframe⟩
    · have hk : k.val < (s.regsUpTo x).length := by rw [hlen]; exact Nat.lt_succ_of_le hk
      rw [hin k.val hk, s.regsUpTo_getElem]
    · rw [hlen]
      exact ha
  · exact exec_stores_out_of_range rfl (s.regsUpTo_ne_nil x) (by omega)
  · exact exec_stores_font rfl (s.regsUpTo_ne_nil x) (by omega) hfont

/-- Settles O55: by the two sides of the range test; the font table is no obstacle to a read. -/
theorem ldVxMemLoadsRegisters : Obligations.LdVxMemLoadsRegisters := by
  refine fun s x => ⟨fun hend => ?_, fun hend => ?_⟩
  · exact ⟨_, exec_ldVxMem_in_range hend, fun _ => s.loadRegs_range_reg_of_le _, fun _ => s.loadRegs_range_reg_of_gt _,
      s.loadRegs_advance_frame _ _⟩
  · exact ⟨_, exec_ldVxMem_out_of_range hend, rfl⟩

end Sys2Proof.Machine
end

section
/-! The keyboard skips and the timer transfers (46_timer_io.md): when a register value names a pressed key, the two
branches of a skip, what a write of the timers leaves unchanged, and the statements O56 and O57. -/

namespace Sys2Proof.Machine

/-! ### The two keyboard skips -/

/-- A value above 15 names no key, so it fails the test whatever the mask holds (46_timer_io.md R180). -/
theorem State.keyPressed_iff (s : State) (k : Byte) :
    s.keyPressed k = true ↔ k.toNat ≤ 15 ∧ s.keys.getLsbD k.toNat = true := by
  rw [State.keyPressed, Bool.and_eq_true, decide_eq_true_iff]

theorem State.not_keyPressed_iff (s : State) (k : Byte) :
    (!s.keyPressed k) = true ↔ ¬ (k.toNat ≤ 15 ∧ s.keys.getLsbD k.toNat = true) := by
  rw [Bool.not_eq_true', ← Bool.not_eq_true, s.keyPressed_iff]

/-- A skip's two branches apart, for the condition that its Boolean test decides. -/
theorem exec_branches_of_skipIf {s : State} {i : Instr} {c : Bool} {p : Prop}
    (h : exec i s = .next (s.skipIf c)) (hc : c = true ↔ p) :
    (p → ∃ t, exec i s = .next t ∧ WritesOnlyPc s t ∧ t.pc.toNat = (s.pc.toNat + 4) % 65536) ∧
    (¬ p → ∃ t, exec i s = .next t ∧ WritesOnlyPc s t ∧ t.pc.toNat = (s.pc.toNat + 2) % 65536) :=
  ⟨fun hp => exec_moves_pc_of_skipIf (p := True) h (hc.trans (iff_true_intro hp)),
    fun hn => exec_moves_pc_of_skipIf (p := False) h (hc.trans (iff_false_intro hn))⟩

/-! ### Writes of the timers -/

/-- No part of the state but the two timers and `pc` is written. A write of one timer is the case where the other keeps
its value. -/
theorem State.setTimers_advance_frame (s : State) (d e : Byte) :
    let t := ((s.setDt d).setSt e).advance
    t.timerStamp = s.timerStamp ∧ Advances s t ∧ SameRegsBut [] s t ∧ t.index = s.index ∧ SameMemory s t ∧
      SameStack s t ∧ SameDisplay s t ∧ SameRunState s t ∧ SameInputs s t :=
  ⟨rfl, advances_of_pc rfl, fun _ _ => rfl, rfl, fun _ => rfl, ⟨rfl, rfl⟩, ⟨rfl, rfl⟩, ⟨rfl, rfl⟩, ⟨rfl, rfl⟩⟩

/-! ### The statements -/

/-- Settles O56: both are skips on one test, `SKNP` on its negation. -/
theorem keySkipsTestTheNamedKey : Obligations.KeySkipsTestTheNamedKey := by
  intro s x
  obtain ⟨hskp, hskp_not⟩ := exec_branches_of_skipIf (i := .skpVx x) rfl (s.keyPressed_iff (s.reg x))
  obtain ⟨hsknp, hsknp_not⟩ := exec_branches_of_skipIf (i := .sknpVx x) rfl (s.not_keyPressed_iff (s.reg x))
  exact ⟨hskp, hskp_not, hsknp, fun hp => hsknp_not (not_not_intro hp)⟩

/-- Settles O57: one is a write of `V[x]`, the other two are writes of one timer. -/
theorem timerTransfers : Obligations.TimerTransfers := fun s x =>
  ⟨⟨_, rfl, s.setReg_reg_self x _, writesOnlyRegs_setReg s x _⟩,
    ⟨_, rfl, rfl, rfl, s.setTimers_advance_frame (s.reg x) s.st⟩,
    ⟨_, rfl, rfl, rfl, s.setTimers_advance_frame s.dt (s.reg x)⟩⟩

end Sys2Proof.Machine
end

section
/-! How a running machine halts (60_exceptions.md R198): every way that the driver's pass can leave it halted is one entry
of a terminal condition, and statement O19. -/

namespace Sys2Proof.Machine

variable {s t : State}

/-- The timer update does not touch `run_state`, whether it runs or not. -/
theorem afterHandler_runState (i : Instr) (s t : State) : (afterHandler i s t).runState = t.runState := by
  unfold afterHandler
  split
  · rfl
  · exact t.timerUpdate_runState _

/-- After a terminal condition there is no timer update (40_engine.md R108). -/
theorem afterHandler_of_halted (i : Instr) (s : State) (h : t.runState = .halted) : afterHandler i s t = t := by
  simp [afterHandler, h]

/-- Only a terminal condition of the instruction halts a machine that runs. -/
theorem exec_halts {i : Instr} (hrun : s.runState = .running) (h : exec i s = .next t) (hhalt : t.runState = .halted) :
    ∃ c, c ≠ .ok ∧ t = s.halt c := by
  refine (exec_runState h).resolve_right fun ⟨hsame, _⟩ => ?_
  rw [hsame, hrun] at hhalt
  cases hhalt

/-- The driver's own tests and the handlers all halt a running machine in the one way. -/
theorem driverStep_halts (hrun : s.runState = .running) (h : driverStep s = .next t) (hhalt : t.runState = .halted) :
    ∃ c, c ≠ .ok ∧ t = s.halt c := by
  rcases driverStep_cases s with
    ⟨hstopped, -⟩ | ⟨-, -, e⟩ | ⟨-, -, -, e⟩ | ⟨-, -, -, -, e⟩ | ⟨-, -, -, i, u, -, hexec, e⟩
  · rw [hrun] at hstopped
    cases hstopped
  all_goals rw [e] at h; cases h
  · exact ⟨.haltRequested, by decide, rfl⟩
  · exact ⟨.addressOutOfRange, by decide, rfl⟩
  · exact ⟨.unhandled, by decide, rfl⟩
  · rw [afterHandler_runState] at hhalt
    rw [afterHandler_of_halted i s hhalt]
    exact exec_halts hrun hexec hhalt

/-- Settles O19: with no moves the step is the driver's pass and the end of the turn, and neither adds to the halt. -/
theorem terminalConditionsArePrecise : Obligations.TerminalConditionsArePrecise := by
  intro s t hrun hm hstep hhalt
  obtain ⟨u, hpass, rfl⟩ := step_inv hstep
  rw [State.envMoves_of_nil hm] at hpass
  obtain ⟨c, hc, rfl⟩ := driverStep_halts hrun hpass hhalt
  exact ⟨hc, rfl⟩

end Sys2Proof.Machine
end

section
/-! The decoder as arithmetic on words (30_encoding.md): the fields and the formats as quotients and remainders, when a row
accepts a word, and the statements O1 to O6. -/

namespace Sys2Proof

/-! ### Fields and formats as natural numbers -/

theorem extractLsb'_toNat (w : Word) (start len : Nat) :
    (w.extractLsb' start len).toNat = w.toNat / 2 ^ start % 2 ^ len := by
  rw [BitVec.extractLsb'_toNat, Nat.shiftRight_eq_div_pow]

theorem fieldsOf_nnn_toNat (w : Word) : (fieldsOf w).nnn.toNat = w.toNat % 4096 := by
  rw [fieldsOf, extractLsb'_toNat, pow_zero, Nat.div_one]
  rfl

theorem fieldsOf_x_val (w : Word) : (fieldsOf w).x.val = w.toNat / 256 % 16 :=
  extractLsb'_toNat w 8 4

theorem fieldsOf_y_val (w : Word) : (fieldsOf w).y.val = w.toNat / 16 % 16 :=
  extractLsb'_toNat w 4 4

theorem fieldsOf_kk_toNat (w : Word) : (fieldsOf w).kk.toNat = w.toNat % 256 := by
  rw [fieldsOf, extractLsb'_toNat, pow_zero, Nat.div_one]
  rfl

theorem fieldsOf_n_toNat (w : Word) : (fieldsOf w).n.toNat = w.toNat % 16 := by
  rw [fieldsOf, extractLsb'_toNat, pow_zero, Nat.div_one]
  rfl

/-- A word has no bit above its `op` field, so that the quotient is the whole field. -/
theorem fieldsOf_op_toNat (w : Word) : (fieldsOf w).op.toNat = w.toNat / 4096 := by
  have hw : w.toNat < 65536 := w.isLt
  rw [fieldsOf, extractLsb'_toNat]
  omega

theorem append_toNat {m n : Nat} (a : BitVec m) (b : BitVec n) : (a ++ b).toNat = a.toNat * 2 ^ n + b.toNat := by
  rw [BitVec.toNat_append, ← Nat.shiftLeft_add_eq_or_of_lt b.isLt, Nat.shiftLeft_eq]

theorem formA_toNat (op : BitVec 4) (nnn : BitVec 12) : (formA op nnn).toNat = op.toNat * 4096 + nnn.toNat :=
  append_toNat op nnn

theorem formXK_toNat (op : BitVec 4) (x : Reg) (kk : Byte) :
    (formXK op x kk).toNat = (op.toNat * 16 + x.val) * 256 + kk.toNat := by
  rw [formXK, append_toNat, append_toNat]
  rfl

theorem formXY_toNat (op : BitVec 4) (x y : Reg) (c : BitVec 4) :
    (formXY op x y c).toNat = ((op.toNat * 16 + x.val) * 16 + y.val) * 16 + c.toNat := by
  rw [formXY, append_toNat, append_toNat, append_toNat]
  rfl

/-! ### When a row accepts a word -/

/-- A mask of the `op` field and of the `k` lowest bits. -/
theorem and_mask_toNat (w : Word) {k : Nat} (hk : k ≤ 12) :
    (w &&& (0xF#4 ++ BitVec.ofNat 12 (2 ^ k - 1))).toNat = w.toNat / 4096 * 4096 + w.toNat % 2 ^ k := by
  have hw : w = (fieldsOf w).op ++ (fieldsOf w).nnn :=
    BitVec.eq_of_toNat_eq (by rw [append_toNat, fieldsOf_op_toNat, fieldsOf_nnn_toNat]; omega)
  have hpow : 2 ^ k ≤ 2 ^ 12 := Nat.pow_le_pow_right (by decide) hk
  have hpos : 0 < 2 ^ k := Nat.two_pow_pos k
  have hmask : (BitVec.ofNat 12 (2 ^ k - 1)).toNat = 2 ^ k - 1 := by
    rw [BitVec.toNat_ofNat, Nat.mod_eq_of_lt (by omega)]
  conv_lhs => rw [hw]
  rw [BitVec.and_append, and_ones4, append_toNat, BitVec.toNat_and, hmask, Nat.and_two_pow_sub_one_eq_mod,
    fieldsOf_op_toNat, fieldsOf_nnn_toNat, Nat.mod_mod_of_dvd _ (Nat.pow_dvd_pow 2 hk)]
  rfl

/-- A row whose mask fixes the `op` field and the `k` lowest bits. -/
theorem Row.accepts_iff_of_mask {r : Row} {k op low : Nat} (hk : k ≤ 12)
    (hmask : r.mask = 0xF#4 ++ BitVec.ofNat 12 (2 ^ k - 1)) (hlow : low < 2 ^ k)
    (hpattern : r.pattern.toNat = op * 4096 + low) (w : Word) :
    r.accepts w = true ↔ w.toNat / 4096 = op ∧ w.toNat % 2 ^ k = low := by
  have hpow : 2 ^ k ≤ 2 ^ 12 := Nat.pow_le_pow_right (by decide) hk
  have hmod : w.toNat % 2 ^ k < 2 ^ k := Nat.mod_lt _ (Nat.two_pow_pos k)
  rw [Row.accepts, beq_iff_eq, ← BitVec.toNat_inj, hmask, and_mask_toNat w hk, hpattern]
  omega

/-- How many of the lowest bits a family's row fixes, besides the `op` field: none in format A and where the fields are all
used, the last nibble, the last byte, or all (30_encoding.md R83, R84). -/
def Family.lowBits : Family → Nat
  | .cls | .ret => 12
  | .seVxVy | .ldVxVy | .orVxVy | .andVxVy | .xorVxVy | .addVxVy | .subVxVy | .shrVx | .subnVxVy | .shlVx | .sneVxVy => 4
  | .skpVx | .sknpVx | .ldVxDt | .ldVxK | .ldDtVx | .ldStVx | .addIVx | .ldFVx | .ldBVx | .ldMemVx | .ldVxMem => 8
  | .jpAddr | .callAddr | .seVxKk | .sneVxKk | .ldVxKk | .addVxKk | .ldIAddr | .jpV0Addr | .rndVxKk | .drwVxVyN => 0

theorem Family.row_shape (f : Family) :
    f.lowBits ≤ 12 ∧ f.row.mask = 0xF#4 ++ BitVec.ofNat 12 (2 ^ f.lowBits - 1) ∧
      f.row.pattern.toNat % 4096 < 2 ^ f.lowBits := by
  cases f <;> decide

/-- A family's row accepts the words that agree with its pattern in the `op` field and in the low bits that it fixes. -/
theorem Family.accepts_iff (f : Family) (w : Word) :
    f.row.accepts w = true ↔
      w.toNat / 4096 = f.row.pattern.toNat / 4096 ∧ w.toNat % 2 ^ f.lowBits = f.row.pattern.toNat % 4096 := by
  obtain ⟨hk, hmask, hlow⟩ := f.row_shape
  exact Row.accepts_iff_of_mask hk hmask hlow (Nat.div_add_mod' _ _).symm w

/-! ### A word from its fields -/

theorem eq_of_op_of_rest {v w : Word} (hop : w.toNat / 4096 = v.toNat / 4096)
    (hrest : w.toNat % 4096 = v.toNat % 4096) : v = w :=
  BitVec.eq_of_toNat_eq (by omega)

section FromFields

variable {w : Word} {op : BitVec 4} (hop : w.toNat / 4096 = op.toNat)
include hop

theorem formA_fieldsOf : formA op (fieldsOf w).nnn = w := by
  apply BitVec.eq_of_toNat_eq
  rw [formA_toNat, fieldsOf_nnn_toNat]
  omega

theorem formXK_fieldsOf {kk : Byte} (hkk : w.toNat % 256 = kk.toNat) : formXK op (fieldsOf w).x kk = w := by
  apply BitVec.eq_of_toNat_eq
  rw [formXK_toNat, fieldsOf_x_val]
  omega

theorem formXY_fieldsOf {c : BitVec 4} (hc : w.toNat % 16 = c.toNat) :
    formXY op (fieldsOf w).x (fieldsOf w).y c = w := by
  apply BitVec.eq_of_toNat_eq
  rw [formXY_toNat, fieldsOf_x_val, fieldsOf_y_val]
  omega

end FromFields

/-! ### The encoder and the decoder -/

open Laws.Encoded in
/-- The encoder writes a word of the instruction's own row. -/
theorem accepts_encode (i : Instr) : i.family.row.accepts (encode i) = true := by
  cases i
  exacts [cls, ret, jpAddr _, callAddr _, seVxKk _ _, sneVxKk _ _, seVxVy _ _, ldVxKk _ _, addVxKk _ _, ldVxVy _ _,
    orVxVy _ _, andVxVy _ _, xorVxVy _ _, addVxVy _ _, subVxVy _ _, shrVx _ _, subnVxVy _ _, shlVx _ _, sneVxVy _ _,
    ldIAddr _, jpV0Addr _, rndVxKk _ _, drwVxVyN _ _ _, skpVx _, sknpVx _, ldVxDt _, ldVxK _, ldDtVx _, ldStVx _,
    addIVx _, ldFVx _, ldBVx _, ldMemVx _, ldVxMem _]

/-- The fields that an instruction's family takes from the instruction's word are its operands. -/
theorem instr_fieldsOf_encode (i : Instr) : i.family.instr (fieldsOf (encode i)) = i := by
  cases i <;> simp [Instr.family, Family.instr, encode]

/-- The row fixes all bits of an accepted word that the family's instruction does not carry. -/
theorem encode_instr_of_accepts {f : Family} {w : Word} (h : f.row.accepts w = true) :
    encode (f.instr (fieldsOf w)) = w := by
  obtain ⟨hop, hlow⟩ := (f.accepts_iff w).1 h
  cases f
  case cls | ret => exact eq_of_op_of_rest hop hlow
  case jpAddr | callAddr | ldIAddr | jpV0Addr => exact formA_fieldsOf hop
  case seVxKk | sneVxKk | ldVxKk | addVxKk | rndVxKk => exact formXK_fieldsOf hop (fieldsOf_kk_toNat w).symm
  case drwVxVyN => exact formXY_fieldsOf hop (fieldsOf_n_toNat w).symm
  case seVxVy | ldVxVy | orVxVy | andVxVy | xorVxVy | addVxVy | subVxVy | shrVx | subnVxVy | shlVx | sneVxVy =>
    exact formXY_fieldsOf hop hlow
  case skpVx | sknpVx | ldVxDt | ldVxK | ldDtVx | ldStVx | addIVx | ldFVx | ldBVx | ldMemVx | ldVxMem =>
    exact formXK_fieldsOf hop hlow

/-! ### Dispatch in any order -/

theorem Row.disjoint_symm {a b : Row} (h : a.disjoint b = true) : b.disjoint a = true := by
  rw [Row.disjoint, bne_comm]
  exact h

/-- A word is unhandled when it differs from every pattern in the `op` field or in the low bits that the row fixes. -/
theorem decode_eq_unhandled_iff (w : Word) :
    decode w = .error (.unhandled w) ↔
      ∀ f ∈ dispatchOrder, w.toNat / 4096 = f.row.pattern.toNat / 4096 →
        w.toNat % 2 ^ f.lowBits ≠ f.row.pattern.toNat % 4096 := by
  rcases decode_cases w with ⟨f, hf, hd⟩ | ⟨hnone, hd⟩
  · obtain ⟨hop, hlow⟩ := (f.accepts_iff w).1 hf
    exact iff_of_false (by simp [hd]) fun h => h f (mem_dispatchOrder f) hop hlow
  · refine iff_of_true hd fun f _ hop hlow => ?_
    exact Bool.false_ne_true ((hnone f).symm.trans ((f.accepts_iff w).2 ⟨hop, hlow⟩))

/-! ### The statements -/

/-- Settles O1: each of the fifteen words is decoded. -/
theorem decodeReadsWrittenWords : Obligations.DecodeReadsWrittenWords := by
  unfold Obligations.DecodeReadsWrittenWords
  decide

/-- Settles O2: the word's row is the instruction's own, and its fields are the operands. -/
theorem decodeOfEncode : Obligations.DecodeOfEncode := by
  intro i
  rw [decode_eq_of_accepts (accepts_encode i), instr_fieldsOf_encode]

/-- Settles O3: a word that decodes has been accepted by the row of its instruction. -/
theorem encodeOfDecode : Obligations.EncodeOfDecode := by
  intro w i h
  rcases decode_cases w with ⟨f, hf, hd⟩ | ⟨-, hd⟩
  · obtain rfl : f.instr (fieldsOf w) = i := Except.ok.inj (hd.symm.trans h)
    exact encode_instr_of_accepts hf
  · rw [hd] at h
    cases h

/-- Settles O4: a permutation keeps the rows pairwise disjoint, so that at most one of them accepts the word. -/
theorem dispatchIgnoresRowOrder : Obligations.DispatchIgnoresRowOrder := by
  intro rows hperm w
  have hdisjoint := (hperm.pairwise_iff fun h => Row.disjoint_symm h).2 rows_disjoint
  cases h : dispatchIn dispatchTable w with
  | some f =>
    rw [dispatchIn_eq_of_accepts hdisjoint (hperm.mem_iff.2 (mem_dispatchTable f)) ((dispatch_iff w f).1 h), row_family]
  | none =>
    simp only [dispatchIn, Option.map_eq_none_iff, List.find?_eq_none, hperm.mem_iff] at h ⊢
    exact h

/-- Settles O5: the rows' patterns and masks are compared with the listed groups, one value of the `op` field at a
time. -/
theorem unhandledWordsAreThoseListed : Obligations.UnhandledWordsAreThoseListed := by
  intro w
  rw [decode_eq_unhandled_iff]
  simp only [dispatchOrder, List.forall_mem_cons, Family.row, Family.lowBits]
  have hw : w.toNat < 65536 := w.isLt
  generalize w.toNat = n at *
  generalize hq : n / 4096 = q
  have hq16 : q < 16 := by omega
  interval_cases q <;> simp <;> omega

/-- Settles O6, field by field. -/
theorem fieldsAreSlicesOfTheWord : Obligations.FieldsAreSlicesOfTheWord := by
  intro w
  refine ⟨rfl, ?_⟩
  have hword : (fieldsOf w).word = w := rfl
  simp [Fields.wellFormed, hword, fieldsOf_op_toNat, fieldsOf_nnn_toNat, fieldsOf_x_val, fieldsOf_y_val,
    fieldsOf_kk_toNat, fieldsOf_n_toNat]

end Sys2Proof
end

section
/-! The invariant of a run (20_memory.md R61, 10_state.md R34, R35, 60_exceptions.md R202): each of the environment's moves,
each instruction, a halt, the timer update and the end of a turn keep it, and the statements O21 to O24. -/

namespace Sys2Proof.Machine

variable {s t : State}

/-! ### The invariant, part by part of a step -/

theorem State.reset_inv : State.reset.Inv :=
  ⟨rfl, fun _ _ => rfl, iff_of_true rfl rfl, Nat.le_refl 0⟩

/-- A load of a program writes from 0x200 on, above the font table (10_state.md R43). -/
theorem State.peek_loadProgram_of_lt (s : State) (image : List Byte) {a : Nat} (ha : a < 0x200) :
    (s.loadProgram image).peek a = s.peek a :=
  (Memory.read_loadImage s.mem image a).trans (if_pos ha)

theorem EnvMove.apply_inv (h : s.Inv) (m : EnvMove) : (m.apply s).Inv := by
  obtain ⟨hmem, hfont, hrun, hstamp⟩ := h
  cases m with
  | setKey index pressed => exact ⟨hmem, hfont, hrun, hstamp⟩
  | dirtyClear => exact ⟨hmem, hfont, hrun, hstamp⟩
  | reinit elapsed =>
    obtain ⟨hmem₀, hfont₀, hrun₀, -⟩ := State.reset_inv
    exact ⟨hmem₀, hfont₀, hrun₀, Nat.le_refl _⟩
  | loadProgram image =>
    refine ⟨Memory.wf_loadImage hmem image, fun a ha => ?_, hrun, hstamp⟩
    exact (s.peek_loadProgram_of_lt image (ha.trans (by decide))).trans (hfont a ha)

theorem State.envMoves_inv (h : s.Inv) : s.envMoves.Inv := by
  unfold State.envMoves
  generalize s.turn.moves = moves
  induction moves generalizing s with
  | nil => exact h
  | cons m moves ih => exact ih (EnvMove.apply_inv h m)

theorem State.halt_inv (h : s.Inv) {c : Status} (hc : c ≠ .ok) : (s.halt c).Inv :=
  ⟨h.memory, h.font, iff_of_false nofun hc, h.stamp⟩

/-- No instruction writes a byte of the font table (20_memory.md R61). -/
theorem exec_peek_of_lt {i : Instr} (h : exec i s = .next t) {a : Nat} (ha : a < 80) : t.peek a = s.peek a := by
  rcases exec_mem h with hmem | ⟨b, bs, hb, -, hmem, -⟩
  · rw [State.peek, hmem, State.peek]
  · rw [State.peek, hmem]
    exact s.peek_writeBytes_outside b bs a (.inl (by omega))

theorem exec_wf {i : Instr} (h : exec i s = .next t) (hmem : Memory.wf s.mem = true) : Memory.wf t.mem = true := by
  rcases exec_mem h with hsame | ⟨b, bs, -, hend, hstore, -⟩
  · rw [hsame, hmem]
  · rw [hstore, Memory.wf_writeBytes hmem hend]

theorem exec_inv {i : Instr} (hs : s.Inv) (h : exec i s = .next t) : t.Inv := by
  rcases exec_runState h with ⟨c, hc, rfl⟩ | ⟨hrun, hstatus⟩
  · exact State.halt_inv hs hc
  · obtain ⟨⟨-, henv⟩, hstamp⟩ := exec_inputs h
    refine ⟨exec_wf h hs.memory, fun a ha => (exec_peek_of_lt h ha).trans (hs.font a ha), ?_, ?_⟩
    · rw [hrun, hstatus, hs.running]
    · rw [hstamp, henv]
      exact hs.stamp

/-! ### The end of a step -/

theorem State.endTurn_inv (h : s.Inv) : s.endTurn.Inv :=
  ⟨h.memory, h.font, h.running, h.stamp.trans (Nat.le_add_right ..)⟩

/-- A tick sets the stamp to the `now` of this step, which the end of the turn records. -/
theorem State.timerUpdate_endTurn_inv (h : s.Inv) : (s.timerUpdate s.nowInput).endTurn.Inv := by
  refine ⟨h.memory, h.font, h.running, ?_⟩
  change (if s.tickDue s.nowInput then s.nowInput else s.timerStamp) ≤ s.nowInput
  split
  · exact Nat.le_refl _
  · exact h.stamp.trans (Nat.le_add_right ..)

theorem afterHandler_endTurn_inv (i : Instr) (s : State) (h : t.Inv) : (afterHandler i s t).endTurn.Inv := by
  unfold afterHandler
  split
  · exact State.endTurn_inv h
  · exact State.timerUpdate_endTurn_inv h

theorem driverStep_endTurn_inv (hs : s.Inv) (h : driverStep s = .next t) : t.endTurn.Inv := by
  rcases driverStep_cases s with
    ⟨-, e⟩ | ⟨-, -, e⟩ | ⟨-, -, -, e⟩ | ⟨-, -, -, -, e⟩ | ⟨-, -, -, i, u, -, hexec, e⟩
  all_goals rw [e] at h; cases h
  · exact State.endTurn_inv hs
  · exact State.endTurn_inv (State.halt_inv hs (by decide))
  · exact State.endTurn_inv (State.halt_inv hs (by decide))
  · exact State.endTurn_inv (State.halt_inv hs (by decide))
  · exact afterHandler_endTurn_inv i s (exec_inv hs hexec)

theorem driverStep_next (s : State) : ∃ t, driverStep s = .next t := by
  rcases driverStep_cases s with
    ⟨-, e⟩ | ⟨-, -, e⟩ | ⟨-, -, -, e⟩ | ⟨-, -, -, -, e⟩ | ⟨-, -, -, i, u, -, -, e⟩ <;> exact ⟨_, e⟩

/-! ### The statements -/

/-- Settles O21: the driver answers a next state in each of its cases. -/
theorem everyStepAnswersNext : Obligations.EveryStepAnswersNext := by
  intro s
  obtain ⟨t, ht⟩ := driverStep_next s.envMoves
  exact ⟨t.endTurn, step_eq_next ht⟩

/-- Settles O22. -/
theorem invariantAtReset : Obligations.InvariantAtReset :=
  State.reset_inv

/-- Settles O23: the moves keep the invariant, and so does the driver's pass with the end of the turn. -/
theorem invariantKeptByEveryStep : Obligations.InvariantKeptByEveryStep := by
  intro s t hs h
  obtain ⟨u, hpass, rfl⟩ := step_inv h
  exact driverStep_endTurn_inv (State.envMoves_inv hs) hpass

/-- Settles O24: the invariant holds all along the run, and the font table is part of it. -/
theorem fontTableIsNeverAltered : Obligations.FontTableIsNeverAltered := fun n s t hs h =>
  (run_keeps invariantKeptByEveryStep n s t hs h).font

end Sys2Proof.Machine
end

section
/-! Which instructions write which part of the state (10_state.md R22 to R36): one case split for all parts but the
registers and memory, one for the registers, and the statements O28 to O30, O32 and O33. -/

namespace Sys2Proof.Machine

variable {i : Instr} {s t : State}

/-! ### Every part but the registers and memory -/

/-- Each part of the state is as before, unless the instruction is of a family that writes it. -/
structure HasItsWriters (i : Instr) (s t : State) : Prop where
  index   : i.family ∉ [.ldIAddr, .addIVx, .ldFVx] → t.index = s.index
  stack   : i.family ≠ .callAddr → t.stack = s.stack
  sp      : i.family ∉ [.callAddr, .ret] → t.sp = s.sp
  display : i.family ∉ [.cls, .drwVxVyN] → SameDisplay s t
  dt      : i.family ≠ .ldDtVx → t.dt = s.dt
  st      : i.family ≠ .ldStVx → t.st = s.st

/-- An instruction that writes at most registers, `pc`, memory and the run state keeps all of those parts. -/
theorem hasItsWriters_of_eq {v : Vector Byte 16} {pc : Word} {mem : List Host.Cell} {r : RunState} {c : Status}
    (h : t = { s with v := v, pc := pc, mem := mem, runState := r, status := c }) : HasItsWriters i s t := by
  subst h
  exact ⟨fun _ => rfl, fun _ => rfl, fun _ => rfl, fun _ => ⟨rfl, rfl⟩, fun _ => rfl, fun _ => rfl⟩

theorem exec_hasItsWriters (h : exec i s = .next t) : HasItsWriters i s t := by
  rcases exec_cases h with ⟨c, -, rfl⟩ | hc
  · exact hasItsWriters_of_eq rfl
  cases i
  case ldIAddr | addIVx | ldFVx =>
    cases h
    exact ⟨fun hf => absurd (by simp [Instr.family]) hf, fun _ => rfl, fun _ => rfl, fun _ => ⟨rfl, rfl⟩, fun _ => rfl,
      fun _ => rfl⟩
  case callAddr =>
    obtain ⟨_, rfl⟩ := hc
    exact ⟨fun _ => rfl, fun hf => absurd rfl hf, fun hf => absurd (by simp [Instr.family]) hf, fun _ => ⟨rfl, rfl⟩,
      fun _ => rfl, fun _ => rfl⟩
  case ret =>
    obtain ⟨_, rfl⟩ := hc
    exact ⟨fun _ => rfl, fun _ => rfl, fun hf => absurd (by simp [Instr.family]) hf, fun _ => ⟨rfl, rfl⟩,
      fun _ => rfl, fun _ => rfl⟩
  case cls =>
    cases h
    exact ⟨fun _ => rfl, fun _ => rfl, fun _ => rfl, fun hf => absurd (by simp [Instr.family]) hf, fun _ => rfl,
      fun _ => rfl⟩
  case drwVxVyN =>
    obtain ⟨-, _, -, rfl⟩ := hc
    exact ⟨fun _ => rfl, fun _ => rfl, fun _ => rfl, fun hf => absurd (by simp [Instr.family]) hf, fun _ => rfl,
      fun _ => rfl⟩
  case ldDtVx =>
    cases h
    exact ⟨fun _ => rfl, fun _ => rfl, fun _ => rfl, fun _ => ⟨rfl, rfl⟩, fun hf => absurd rfl hf, fun _ => rfl⟩
  case ldStVx =>
    cases h
    exact ⟨fun _ => rfl, fun _ => rfl, fun _ => rfl, fun _ => ⟨rfl, rfl⟩, fun _ => rfl, fun hf => absurd rfl hf⟩
  case ldVxMem => obtain ⟨-, rfl⟩ := hc; rw [State.loadRegs_eq]; exact hasItsWriters_of_eq rfl
  case ldBVx | ldMemVx => obtain ⟨-, -, rfl⟩ := hc; exact hasItsWriters_of_eq rfl
  case ldVxK => rcases hc with ⟨-, rfl⟩ | ⟨_, -, rfl⟩ <;> exact hasItsWriters_of_eq rfl
  all_goals cases h; exact hasItsWriters_of_eq rfl

/-! ### The registers -/

theorem flagByte_eq_zero_or_one (f : Bool) : flagByte f = 0 ∨ flagByte f = 1 := by
  cases f
  · exact .inl rfl
  · exact .inr rfl

/-- A flag writer leaves a flag in `V[15]`, whatever its field `x`: the flag is written last (44_alu.md R162). -/
theorem exec_flagWriter (h : exec i s = .next t) (hi : i.family ∈ flagWriters) (hrun : t.runState = .running) :
    ∃ f, t.reg 15 = flagByte f := by
  rcases exec_cases h with ⟨c, -, rfl⟩ | hc
  · cases hrun
  cases i
  case addVxVy | subVxVy | subnVxVy | shrVx | shlVx => cases h; exact ⟨_, s.setResultThenFlag_reg_flag ..⟩
  case drwVxVyN => obtain ⟨-, d, -, rfl⟩ := hc; exact ⟨d.collision, State.setReg_reg_self ..⟩
  all_goals exact absurd hi (by simp [flagWriters, Instr.family])

theorem State.setReg_reg_of_xField (s : State) {x : Reg} (b : Byte) (hx : some x ≠ some (15 : Reg)) :
    (s.setReg x b).advance.reg 15 = s.reg 15 :=
  s.setReg_reg_ne b fun h => hx (congrArg some h.symm)

/-- An instruction that is no flag writer writes `V[15]` only as its `V[x]`; `LD Vx,[I]` writes registers up to `V[x]`. -/
theorem exec_reg_fifteen (h : exec i s = .next t) (hi : i.family ∉ flagWriters) (hx : xField i ≠ some 15) :
    t.reg 15 = s.reg 15 := by
  rcases exec_cases h with ⟨c, -, rfl⟩ | hc
  · rfl
  cases i
  case addVxVy | subVxVy | subnVxVy | shrVx | shlVx | drwVxVyN => exact absurd (by simp [flagWriters, Instr.family]) hi
  case ldVxKk | addVxKk | ldVxVy | orVxVy | andVxVy | xorVxVy | rndVxKk | ldVxDt =>
    cases h; exact s.setReg_reg_of_xField _ hx
  case ldVxK =>
    rcases hc with ⟨-, rfl⟩ | ⟨k, -, rfl⟩
    · rfl
    · exact s.setReg_reg_of_xField _ hx
  case ldVxMem x =>
    obtain ⟨-, rfl⟩ := hc
    exact s.loadRegs_range_reg_of_gt _ (Fin.lt_last_iff_ne_last.2 fun h => hx (congrArg some h))
  case ret | callAddr => obtain ⟨_, rfl⟩ := hc; rfl
  case ldBVx | ldMemVx => obtain ⟨-, -, rfl⟩ := hc; rfl
  all_goals cases h; rfl

theorem exec_sameMemory (h : exec i s = .next t) (hi : i.family ∉ [.ldBVx, .ldMemVx]) : SameMemory s t := by
  rcases exec_mem h with hmem | ⟨-, -, -, -, -, hstores⟩
  · exact fun a => by rw [State.peek, hmem, State.peek]
  · exact absurd (by simpa using hstores) hi

/-! ### The statements -/

/-- Settles O28: the two cases of `V[15]`. -/
theorem flagRegisterHasItsWriters : Obligations.FlagRegisterHasItsWriters := by
  refine fun i s t h => ⟨fun hi hrun => ?_, exec_reg_fifteen h⟩
  obtain ⟨f, hf⟩ := exec_flagWriter h hi hrun
  rw [hf]
  exact flagByte_eq_zero_or_one f

/-- Settles O29. -/
theorem indexHasItsWriters : Obligations.IndexHasItsWriters := fun _ _ _ h =>
  (exec_hasItsWriters h).index

/-- Settles O30. -/
theorem stackHasItsWriters : Obligations.StackHasItsWriters := fun _ _ _ h =>
  ⟨(exec_hasItsWriters h).stack, (exec_hasItsWriters h).sp⟩

/-- Settles O32: what an instruction stores lies at 0x050 or above. -/
theorem memoryHasItsWriters : Obligations.MemoryHasItsWriters := fun _ _ _ h =>
  ⟨exec_sameMemory h, fun _ => exec_peek_of_lt h⟩

/-- Settles O33. -/
theorem keysAndTimersHaveTheirWriters : Obligations.KeysAndTimersHaveTheirWriters := by
  intro i s t h
  obtain ⟨hinputs, hstamp⟩ := exec_inputs h
  exact ⟨hinputs, hstamp, (exec_hasItsWriters h).dt, (exec_hasItsWriters h).st⟩

end Sys2Proof.Machine
end

section
/-! What an instruction and the driver's pass read of the environment's side (40_engine.md R113, R114): each commutes with
the exchange of that side for one that gives the same inputs, and the statements O13 and O34. -/

namespace Sys2Proof.Machine

/-! ### The operations that may raise a terminal condition, with another environment -/

section Operations

variable (s : State) (e : Env)

/-- The result of a handler's body, its state with another environment. -/
def withEnv (r : Except Status State) : Except Status State := r.map fun t => { t with env := e }

theorem State.orHalt_withEnv (r : Except Status State) :
    State.orHalt { s with env := e } (withEnv e r) = { s.orHalt r with env := e } := by
  cases r <;> rfl

theorem map_withEnv {α : Type} {f f' : α → State} (h : ∀ x, f' x = { f x with env := e }) (r : Except Status α) :
    r.map f' = withEnv e (r.map f) := by
  cases r with
  | error c => rfl
  | ok x => exact congrArg Except.ok (h x)

theorem State.storeBytes_advance_withEnv (a : Nat) (bs : List Byte) :
    (State.storeBytes { s with env := e } a bs).map State.advance =
      withEnv e ((s.storeBytes a bs).map State.advance) := by
  unfold State.storeBytes
  cases storesFault a bs.length <;> rfl

theorem State.push_withEnv (w : Word) : State.push { s with env := e } w = withEnv e (s.push w) := by
  by_cases h : s.sp.val < 16 <;> simp [State.push, withEnv, h, Except.map]

theorem State.pop_withEnv :
    State.pop { s with env := e } = s.pop.map fun (w, t) => (w, { t with env := e }) := by
  by_cases h : s.sp.val = 0 <;> simp [State.pop, h, Except.map]

theorem State.loadRegs_withEnv (k : Nat) (bs : List Byte) :
    State.loadRegs { s with env := e } k bs = { s.loadRegs k bs with env := e } := by
  induction bs generalizing s k with
  | nil => rfl
  | cons b bs ih => exact ih (s.setReg (Fin.ofNat 16 k) b) (k + 1)

end Operations

/-! ### An instruction with another environment -/

variable {s t : State} {e : Env} {i : Instr}

/-- The shape of the instructions that may raise a terminal condition. -/
theorem exec_withEnv_of_orHalt {r r' : Except Status State} (hr : r' = withEnv e r)
    (h : exec i s = .next (s.orHalt r))
    (h' : exec i { s with env := e } = .next (State.orHalt { s with env := e } r')) (ht : exec i s = .next t) :
    exec i { s with env := e } = .next { t with env := e } := by
  rw [h] at ht
  cases ht
  rw [h', hr, State.orHalt_withEnv]

/-- Besides the random byte of `RND` and the key report of `LD Vx,K`, no instruction reads the environment's side. -/
theorem exec_withEnv (hrand : i.family = .rndVxKk → (State.turn { s with env := e }).randByte = s.turn.randByte)
    (hkey : i.family = .ldVxK → (State.turn { s with env := e }).keyReport = s.turn.keyReport)
    (h : exec i s = .next t) : exec i { s with env := e } = .next { t with env := e } := by
  cases i
  case rndVxKk =>
    rw [exec, execRndVxKk, hrand rfl]
    cases h
    rfl
  case ldVxK =>
    rw [exec, execLdVxK, hkey rfl]
    cases h
    cases s.turn.keyReport <;> rfl
  case ret =>
    refine exec_withEnv_of_orHalt ?_ rfl rfl h
    rw [s.pop_withEnv]
    cases s.pop <;> rfl
  case callAddr =>
    refine exec_withEnv_of_orHalt ?_ rfl rfl h
    rw [s.push_withEnv]
    cases s.push (s.pc + 2) <;> rfl
  case drwVxVyN x y n =>
    exact exec_withEnv_of_orHalt (map_withEnv e (fun _ => rfl) (s.readBytes (s.dataAddr 0) n.toNat)) rfl rfl h
  case ldVxMem x =>
    refine exec_withEnv_of_orHalt (map_withEnv e ?_ (s.readBytes (s.dataAddr 0) (x.val + 1))) rfl rfl h
    exact fun bs => congrArg State.advance (s.loadRegs_withEnv e 0 bs)
  case ldBVx | ldMemVx => exact exec_withEnv_of_orHalt (s.storeBytes_advance_withEnv e _ _) rfl rfl h
  all_goals cases h; rfl

/-! ### The driver's pass with another environment -/

theorem driverStep_of_halted (h : s.runState = .halted) : driverStep s = .next s := by
  rw [driverStep, h]

/-- Another environment gives the coming step the same inputs. Its moves, which come before the step, may differ. -/
structure SuppliesInputsOf (e : Env) (s : State) : Prop where
  turn       : ∃ moves, State.turn { s with env := e } = { s.turn with moves := moves }
  now        : e.now = s.env.now
  tickPeriod : e.tickPeriod = s.env.tickPeriod

section Supplied

variable (he : SuppliesInputsOf e s)
include he

theorem afterHandler_withEnv (i : Instr) (ht : t.env = s.env) :
    afterHandler i { s with env := e } { t with env := e } = { afterHandler i s t with env := e } := by
  obtain ⟨⟨moves, hturn⟩, hnow, hperiod⟩ := he
  have hstalls : stalls i { s with env := e } = stalls i s := by
    cases i
    case ldVxK => rw [stalls, hturn, stalls]
    all_goals rfl
  have hnowInput : State.nowInput { t with env := e } = t.nowInput := by
    have hturnT : State.turn { t with env := e } = State.turn { s with env := e } := rfl
    have hturnS : t.turn = s.turn := by rw [State.turn, ht, State.turn]
    rw [State.nowInput, State.nowInput, hturnT, hturn, hturnS, ht]
    exact congrArg (· + _) hnow
  unfold afterHandler
  rw [hstalls, hnowInput]
  split
  · rfl
  · have htick : State.tickDue { t with env := e } t.nowInput = t.tickDue t.nowInput := by
      rw [State.tickDue, State.tickDue, ht, ← hperiod]
    rw [State.timerUpdate, htick]
    rfl

/-- The driver's pass reads the environment's side only through the inputs of the coming step. -/
theorem driverStep_withEnv (h : driverStep s = .next t) :
    driverStep { s with env := e } = .next { t with env := e } := by
  obtain ⟨moves, hturn⟩ := he.turn
  have hreq : (State.turn { s with env := e }).haltRequest = s.turn.haltRequest := by rw [hturn]
  rcases driverStep_cases s with
    ⟨hr, hpass⟩ | ⟨hr, hh, hpass⟩ | ⟨hr, hh, hpc, hpass⟩ | ⟨hr, hh, hpc, hd, hpass⟩ | ⟨hr, hh, hpc, i, u, hd, hexec, hpass⟩
  all_goals rw [hpass] at h; cases h
  · exact driverStep_of_halted hr
  · exact driverStep_of_haltRequest hr (hreq.trans hh)
  · exact driverStep_of_fetch_error (s := { s with env := e }) hr (hreq.trans hh)
      (State.fetch_at_end (Nat.le_of_lt_succ hpc))
  · exact driverStep_of_decode_error hr (hreq.trans hh) hpc hd
  · have hexec' := exec_withEnv (e := e) (fun _ => by rw [hturn]) (fun _ => by rw [hturn]) hexec
    rw [driverStep_of_decode_ok (s := { s with env := e }) hr (hreq.trans hh) hpc hd hexec',
      afterHandler_withEnv he i (exec_inputs hexec).1.2]

end Supplied

/-! ### The statements -/

/-- Settles O34. -/
theorem instructionsReadNoOtherInput : Obligations.InstructionsReadNoOtherInput := fun _ _ _ _ =>
  exec_withEnv

/-- Settles O13: the two states differ in the environment's side alone, which supplies the same inputs in both and is the
same when the turn is over. -/
theorem environmentMovesComeBeforeTheStep : Obligations.EnvironmentMovesComeBeforeTheStep := by
  intro s
  change step s = step { s.envMoves with
    env := { s.envMoves.env with turns := { s.turn with moves := [] } :: s.env.turns.tail } }
  generalize he : ({ s.envMoves.env with turns := { s.turn with moves := [] } :: s.env.turns.tail } : Env) = e
  have hsupplies : SuppliesInputsOf e s.envMoves := by
    subst he
    exact ⟨⟨[], by rw [s.envMoves_turn]; rfl⟩, rfl, rfl⟩
  obtain ⟨t, ht⟩ := driverStep_next s.envMoves
  have hstep := step_of_driverStep (by subst he; rfl) (driverStep_withEnv hsupplies ht)
  obtain ⟨hturns, -, -⟩ := envMoves_env s
  have hturn : t.turn = s.turn := by rw [State.turn, driverStep_env ht, ← s.envMoves_turn, State.turn]
  have hend : t.endTurn = State.endTurn { t with env := e } := by
    subst he
    simp only [State.endTurn, State.nowInput, hturn, driverStep_env ht, hturns]
    rfl
  rw [step_eq_next ht, hstep, hend]

end Sys2Proof.Machine
end

section
/-! Steps and runs (40_engine.md R100 to R110): the step of a decoded instruction, the timer update, the runs of a halted
machine, and the statements O12, O14, O15, O25 and O26. -/

namespace Sys2Proof.Machine

variable {s t : State} {i : Instr}

/-! ### The timer update -/

theorem State.timerUpdate_of_tickDue {now : Nat} (h : s.env.tickPeriod ≤ now - s.timerStamp) :
    s.timerUpdate now = { s with dt := countdown s.dt, st := countdown s.st, timerStamp := now } := by
  have htick : s.tickDue now = true := decide_eq_true h
  simp [State.timerUpdate, htick]

theorem State.timerUpdate_of_no_tick {now : Nat} (h : now - s.timerStamp < s.env.tickPeriod) :
    s.timerUpdate now = s := by
  have htick : s.tickDue now = false := decide_eq_false (Nat.not_le.2 h)
  simp [State.timerUpdate, htick]

theorem afterHandler_of_completed (hstall : stalls i s = false) (hrun : t.runState = .running) :
    afterHandler i s t = t.timerUpdate t.nowInput := by
  simp [afterHandler, hstall, hrun]

/-- The end of a step leaves both timers, or counts both down. -/
theorem afterHandler_timers (i : Instr) (s t : State) :
    ((afterHandler i s t).dt = t.dt ∧ (afterHandler i s t).st = t.st) ∨
      ((afterHandler i s t).dt = countdown t.dt ∧ (afterHandler i s t).st = countdown t.st) := by
  unfold afterHandler
  split
  · exact .inl ⟨rfl, rfl⟩
  · rcases Nat.lt_or_ge (t.nowInput - t.timerStamp) t.env.tickPeriod with h | h
    · rw [State.timerUpdate_of_no_tick h]
      exact .inl ⟨rfl, rfl⟩
    · rw [State.timerUpdate_of_tickDue h]
      exact .inr ⟨rfl, rfl⟩

theorem toNat_eq_or_succ_of_countdown {a b c : Byte} (h : a = b ∨ a = countdown b) (hc : b = c) :
    a.toNat = c.toNat ∨ a.toNat + 1 = c.toNat := by
  subst hc
  rcases h with rfl | rfl
  · exact .inl rfl
  · rw [countdown_toNat]
    omega

/-- The driver's pass either leaves both timers or ends an instruction. -/
theorem driverStep_timers (h : driverStep s = .next t) :
    (t.dt = s.dt ∧ t.st = s.st) ∨
      ∃ i u, decode s.wordAtPc = .ok i ∧ exec i s = .next u ∧ t = afterHandler i s u := by
  rcases driverStep_cases s with
    ⟨-, e⟩ | ⟨-, -, e⟩ | ⟨-, -, -, e⟩ | ⟨-, -, -, -, e⟩ | ⟨-, -, -, i, u, hd, hexec, e⟩
  all_goals rw [e] at h; cases h
  · exact .inl ⟨rfl, rfl⟩
  · exact .inl ⟨rfl, rfl⟩
  · exact .inl ⟨rfl, rfl⟩
  · exact .inl ⟨rfl, rfl⟩
  · exact .inr ⟨i, u, hd, hexec, rfl⟩

/-! ### Runs of a halted machine -/

theorem run_succ_of_step (n : Nat) (h : step s = .next t) : core.run (n + 1) s = core.run n t := by
  simp [Host.Core.run, core, h]

theorem EnvMove.apply_sameRunState (s : State) {m : EnvMove} (hm : ∀ elapsed, m ≠ .reinit elapsed) :
    SameRunState s (m.apply s) := by
  cases m with
  | reinit elapsed => exact absurd rfl (hm elapsed)
  | setKey | dirtyClear | loadProgram => exact ⟨rfl, rfl⟩

/-- Of the environment's moves only a `reinit` writes `run_state` or `status` (60_exceptions.md R200). -/
theorem State.envMoves_sameRunState (h : ∀ elapsed, EnvMove.reinit elapsed ∉ s.turn.moves) :
    SameRunState s s.envMoves := by
  unfold State.envMoves
  generalize s.turn.moves = moves at *
  induction moves generalizing s with
  | nil => exact ⟨rfl, rfl⟩
  | cons m moves ih =>
    obtain ⟨hrun, hstatus⟩ := EnvMove.apply_sameRunState s fun e he => h e (he ▸ List.mem_cons_self)
    obtain ⟨hrun', hstatus'⟩ := ih (s := m.apply s) fun e he => h e (List.mem_cons_of_mem _ he)
    exact ⟨hrun'.trans hrun, hstatus'.trans hstatus⟩

/-! ### The statements -/

/-- Settles O12. -/
theorem stepRunsTheDecodedInstruction : Obligations.StepRunsTheDecodedInstruction := by
  rintro s t i ⟨hrun, hm, hreq⟩ hpc hd hexec
  have hpass := driverStep_of_decode_ok hrun hreq hpc hd hexec
  refine ⟨fun hstop => ?_, fun hstall hrunT => ?_⟩
  · have hend : afterHandler i s t = t := hstop.elim (afterHandler_of_stalls t) (afterHandler_of_halted i s)
    exact step_of_driverStep hm (hpass.trans (congrArg _ hend))
  · exact step_of_driverStep hm (hpass.trans (congrArg _ (afterHandler_of_completed hstall hrunT)))

/-- Settles O14, by induction on the number of steps: each leaves all but the environment's side. -/
theorem haltedStepsChangeNothing : Obligations.HaltedStepsChangeNothing := by
  intro n
  induction n with
  | zero => exact fun s _ _ => ⟨s.env, rfl⟩
  | succ n ih =>
    intro s hhalt hmoves
    have hm : s.turn.moves = [] := s.turnAt_zero ▸ hmoves 0 n.succ_pos
    have hstep := step_of_driverStep hm (driverStep_of_halted hhalt)
    rw [run_succ_of_step n hstep]
    exact ih s.endTurn hhalt fun k hk => step_turnAt hstep k ▸ hmoves (k + 1) (Nat.succ_lt_succ hk)

/-- Settles O15, by induction on the number of steps: neither the moves nor the halted step write the run state. -/
theorem onlyInitializeLeavesHalted : Obligations.OnlyInitializeLeavesHalted := by
  intro n
  induction n with
  | zero => exact fun s hhalt _ => ⟨s, rfl, hhalt, rfl⟩
  | succ n ih =>
    intro s hhalt hmoves
    obtain ⟨hrun, hstatus⟩ := State.envMoves_sameRunState (s.turnAt_zero ▸ hmoves 0 n.succ_pos)
    have hhalt' : s.envMoves.runState = .halted := hrun.trans hhalt
    have hstep := step_eq_next (driverStep_of_halted hhalt')
    rw [run_succ_of_step n hstep, ← hstatus]
    exact ih s.envMoves.endTurn hhalt' fun k hk => step_turnAt hstep k ▸ hmoves (k + 1) (Nat.succ_lt_succ hk)

/-- Settles O25, on each side of the tick. -/
theorem timerUpdateCountsDownOnATick : Obligations.TimerUpdateCountsDownOnATick := by
  intro s now _
  refine ⟨fun htick => ?_, State.timerUpdate_of_no_tick⟩
  rw [State.timerUpdate_of_tickDue htick]
  exact ⟨countdown_toNat s.dt, countdown_toNat s.st, rfl, rfl⟩

/-- Settles O26: the instruction leaves a timer that it is not the writer of, and the end of the step counts it down at
most once; a step that ends halted is a terminal condition, or was halted before. -/
theorem timersLoseAtMostOnePerStep : Obligations.TimersLoseAtMostOnePerStep := by
  intro s t hm h
  have hhalted : t.runState = .halted → SameTimers s t := by
    intro hhalt
    cases hrun : s.runState with
    | running =>
      obtain ⟨-, heq⟩ := terminalConditionsArePrecise s t hrun hm h hhalt
      rw [heq]
      exact ⟨rfl, rfl, rfl⟩
    | halted =>
      rw [step_of_driverStep hm (driverStep_of_halted hrun)] at h
      cases h
      exact ⟨rfl, rfl, rfl⟩
  obtain ⟨u, hpass, rfl⟩ := step_inv h
  rw [State.envMoves_of_nil hm] at hpass
  rcases driverStep_timers hpass with ⟨hdt, hst⟩ | ⟨i, v, hd, hexec, rfl⟩
  · exact ⟨fun _ => toNat_eq_or_succ_of_countdown (.inl rfl) hdt, fun _ => toNat_eq_or_succ_of_countdown (.inl rfl) hst,
      hhalted⟩
  · have hparts := exec_hasItsWriters hexec
    have htimers := afterHandler_timers i s v
    refine ⟨fun hnot => ?_, fun hnot => ?_, hhalted⟩
    · refine toNat_eq_or_succ_of_countdown (htimers.imp And.left And.left) (hparts.dt ?_)
      cases i
      case ldDtVx x => exact absurd hd (hnot x)
      all_goals exact nofun
    · refine toNat_eq_or_succ_of_countdown (htimers.imp And.right And.right) (hparts.st ?_)
      cases i
      case ldStVx x => exact absurd hd (hnot x)
      all_goals exact nofun

end Sys2Proof.Machine
end

section
/-! Reset and the load of a program (10_state.md R39 to R43), and the statements O7 to O9; then a store fetched next, a
`RET` after its `CALL` and a reported key, the statements O35, O36 and O58. -/

namespace Sys2Proof.Machine

/-! ### Reset and `load_program` -/

theorem State.reset_reg (r : Reg) : State.reset.reg r = 0 :=
  Vector.getElem_replicate r.isLt

/-- At 0x200 + `k` the load leaves the image's byte, or 0 after the image's end (10_state.md R43). -/
theorem State.peek_loadProgram_programBase_add (s : State) (image : List Byte) {k : Nat} (hk : k < 3584) :
    (s.loadProgram image).peek (0x200 + k) = image.getD k 0 := by
  have hread := Memory.read_loadImage s.mem image (0x200 + k)
  rwa [if_neg (by omega), if_pos (by omega), Nat.add_sub_cancel_left] at hread

/-- Settles O7, field by field; memory and the display are read through their accessors. -/
theorem resetValuesOfEveryField : Obligations.ResetValuesOfEveryField :=
  ⟨State.reset_reg, rfl, rfl, fun _ h => Vector.getElem_replicate h, rfl, rfl, rfl, rfl, State.getPixel_of_blank rfl, rfl,
    State.reset_inv.font, fun _ h _ => Memory.initialByte_eq_zero h, rfl, rfl, rfl⟩

/-- Settles O8: the fields are written out from reset. -/
theorem initializeResetsEveryField : Obligations.InitializeResetsEveryField := fun _ _ =>
  ⟨rfl, rfl, rfl⟩

/-- Settles O9, by the read below 0x200 and the read from there on. -/
theorem loadProgramCopiesAndZeroFills : Obligations.LoadProgramCopiesAndZeroFills := by
  intro s image
  refine ⟨fun k hk => ?_, fun k hm hk => ?_, fun a => s.peek_loadProgram_of_lt image, rfl⟩
  · have hlen : k < image.length := by omega
    exact (s.peek_loadProgram_programBase_add image (by omega)).trans (List.getD_eq_getElem image 0 hlen)
  · exact (s.peek_loadProgram_programBase_add image hk).trans (List.getD_eq_default image 0 (by omega))

/-! ### A store fetched next, a return, a key -/

/-- Settles O35: the store and the fetch port name the same two bytes. -/
theorem storedCodeIsFetchedNext : Obligations.StoredCodeIsFetchedNext := by
  intro s x k hk hlow hend hnext
  obtain ⟨t, hexec, hstored, -, hpc, -⟩ := (ldMemStoresRegisters s x).1 hlow hend
  have hpc : t.pc.toNat = s.dataAddr k := hpc.trans hnext.symm
  have hfetch : t.fetch = .ok t.wordAtPc := by
    refine State.fetch_below_end ?_
    rw [hpc, State.dataAddr]
    omega
  refine ⟨t, hexec, ?_⟩
  rw [hfetch, State.wordAtPc, hpc]
  exact congrArg Except.ok (congrArg₂ _ (hstored ⟨k, by omega⟩ (Nat.le_of_succ_le hk))
    (hstored ⟨k + 1, by omega⟩ hk))

/-- Settles O36: the entry that the `CALL` pushed is the one that the `RET` pops. -/
theorem retComesBackAfterCall : Obligations.RetComesBackAfterCall := by
  intro s nnn hsp
  obtain ⟨t, hcall, -, hspT, hpushed, -⟩ := (callPushesAndJumps s nnn).1 hsp
  refine ⟨t, hcall, fun u hstack hspU => ?_⟩
  obtain ⟨v, hret, hpc, hspV, -⟩ := (retPopsIntoPc u).1 s.sp.val hsp (by rw [hspU, hspT])
  refine ⟨v, hret, ?_, Fin.ext hspV⟩
  rw [hpc]
  simpa only [hstack] using hpushed

/-- Settles O58: a key's index is a nibble, which the byte register holds. -/
theorem ldVxKTakesTheReportedKey : Obligations.LdVxKTakesTheReportedKey := by
  refine fun s x => ⟨fun k hk => ?_, exec_ldVxK_of_noKey x⟩
  refine ⟨(s.setReg x (k.setWidth 8)).advance, by rw [exec, execLdVxK, hk], ?_, writesOnlyRegs_setReg s x _⟩
  rw [State.advance_reg, State.setReg_reg_self, BitVec.toNat_setWidth_of_le (by decide)]

end Sys2Proof.Machine
end

section
/-! `DRW` (41_display.md R121 to R124) as the pixel port shows it: the sprite's bytes, the draw and its pixels, the collision
and `dirty`, and the statements O31, O37 and O39. -/

namespace Sys2Proof.Machine

variable {s t : State} {x y : Reg} {n : BitVec 4}

/-! ### The sprite and the draw -/

/-- The bytes of a sprite, from `I` on. -/
def State.sprite (s : State) (n : BitVec 4) : List Byte := (List.range n.toNat).map fun k => s.peek (s.dataAddr k)

/-- The draw of a sprite on the display of a state (41_display.md R121). -/
def State.drawing (s : State) (x y : Reg) (n : BitVec 4) : Drawing :=
  Drawing.plot ⟨s.disp, false, false⟩ ((s.reg x).toNat % 64) ((s.reg y).toNat % 32) (s.sprite n)

/-- The state after the draw: the display, the flag and `dirty` written, and `pc` moved on. -/
def State.afterDraw (s : State) (d : Drawing) : State :=
  ((s.setDisplay d.rows d.changed).setReg 15 (flagByte d.collision)).advance

theorem exec_drwVxVyN_in_range (h : n.toNat = 0 ∨ s.index.toNat + n.toNat ≤ 0x1000) :
    exec (.drwVxVyN x y n) s = .next (s.afterDraw (s.drawing x y n)) := by
  rcases s.readBytes_cases (s.dataAddr 0) n.toNat with ⟨-, e⟩ | ⟨hn, hend, -⟩
  · rw [exec, execDrwVxVyN, e]
    rfl
  · exact absurd h (not_or.2 ⟨hn, Nat.not_le.2 hend⟩)

theorem exec_drwVxVyN_out_of_range (hn : n.toNat ≠ 0) (hend : 0x1000 < s.index.toNat + n.toNat) :
    exec (.drwVxVyN x y n) s = .next (s.halt .addressOutOfRange) := by
  rw [exec, execDrwVxVyN, s.readBytes_out_of_range (a := s.dataAddr 0) hn hend]
  rfl

theorem State.afterDraw_frame (s : State) (d : Drawing) :
    let t := s.afterDraw d
    Advances s t ∧ SameRegsBut [15] s t ∧ t.index = s.index ∧ SameMemory s t ∧ SameStack s t ∧ SameTimers s t ∧
      SameRunState s t ∧ SameInputs s t :=
  ⟨advances_of_pc rfl, fun _ hr => State.setReg_reg_ne _ _ (List.ne_of_not_mem_cons hr), rfl, fun _ => rfl, ⟨rfl, rfl⟩,
    ⟨rfl, rfl, rfl⟩, ⟨rfl, rfl⟩, ⟨rfl, rfl⟩⟩

theorem State.afterDraw_flag (s : State) (d : Drawing) : (s.afterDraw d).reg 15 = flagByte d.collision :=
  State.setReg_reg_self ..

/-! ### The pixels of the draw -/

theorem State.sprite_length_le (s : State) (n : BitVec 4) : (s.sprite n).length ≤ 32 := by
  have hn : n.toNat < 16 := n.isLt
  rw [State.sprite, List.length_map, List.length_range]
  omega

/-- The pixels that the plotted bytes cover are those under the sprite. -/
theorem State.covers_sprite_iff (s : State) (x y : Reg) (n : BitVec 4) (col row : Nat) :
    Covers ((s.reg x).toNat % 64) ((s.reg y).toNat % 32) (s.sprite n) col row ↔ s.SpriteAt x y n col row := by
  simp only [Covers, State.SpriteAt, State.sprite, spriteRow_getLsbD, List.length_map, List.length_range,
    List.getElem_map, List.getElem_range, exists_prop, spriteBit]
  refine exists_congr fun r => and_congr_right fun _ => ?_
  exact ⟨fun ⟨hrow, c, hc, hcol, hbit⟩ => ⟨c, hc, hrow, hcol, hbit⟩,
    fun ⟨c, hc, hrow, hcol, hbit⟩ => ⟨hrow, c, hc, hcol, hbit⟩⟩

theorem State.spriteAt_bounds {col row : Nat} (h : s.SpriteAt x y n col row) : col < 64 ∧ row < 32 := by
  obtain ⟨r, -, c, -, hrow, hcol, -⟩ := h
  omega

theorem State.drawing_pixel (s : State) (x y : Reg) (n : BitVec 4) {col row : Nat} (hrow : row < 32) :
    (s.drawing x y n).rows[row].getLsbD col = true ↔
      (s.disp[row].getLsbD col = true ↔ ¬ s.SpriteAt x y n col row) := by
  rw [State.drawing, Drawing.plot_pixel _ _ _ _ (s.sprite_length_le n) _ _ hrow, s.covers_sprite_iff]

theorem State.drawing_collision_iff (s : State) (x y : Reg) (n : BitVec 4) :
    (s.drawing x y n).collision = true ↔ ∃ col row, s.getPixel col row = true ∧ s.SpriteAt x y n col row := by
  rw [State.drawing, Drawing.plot_collision _ _ _ _ (s.sprite_length_le n)]
  simp only [s.covers_sprite_iff, s.getPixel_eq_true_iff, Bool.false_eq_true, false_or, exists_and_right]

theorem State.drawing_changed_iff (s : State) (x y : Reg) (n : BitVec 4) :
    (s.drawing x y n).changed = true ↔ ∃ r < n.toNat, s.peek (s.dataAddr r) ≠ 0 := by
  rw [State.drawing, Drawing.plot_changed]
  simp [State.sprite]

theorem State.getPixel_afterDraw_iff (s : State) (x y : Reg) (n : BitVec 4) {col row : Nat} (hcol : col < 64)
    (hrow : row < 32) :
    (s.afterDraw (s.drawing x y n)).getPixel col row = true ↔
      (s.getPixel col row = true ↔ ¬ s.SpriteAt x y n col row) := by
  rw [State.getPixel_in_range _ (Nat.le_of_lt_succ hcol) (Nat.le_of_lt_succ hrow),
    State.getPixel_in_range _ (Nat.le_of_lt_succ hcol) (Nat.le_of_lt_succ hrow)]
  exact s.drawing_pixel x y n hrow

/-! ### What a display change does to `dirty` -/

theorem State.disp_ext (h : ∀ col row, col < 64 → row < 32 → (t.getPixel col row = true ↔ s.getPixel col row = true)) :
    t.disp = s.disp := by
  refine Vector.ext fun row hrow => BitVec.eq_of_getLsbD_eq fun col hcol => ?_
  have hpixel := h col row hcol hrow
  rw [State.getPixel_in_range _ (Nat.le_of_lt_succ hcol) (Nat.le_of_lt_succ hrow),
    State.getPixel_in_range _ (Nat.le_of_lt_succ hcol) (Nat.le_of_lt_succ hrow)] at hpixel
  exact Bool.eq_iff_iff.2 hpixel

/-- A sprite whose bytes are all 0 has no pixel, so that the draw leaves the display. -/
theorem State.afterDraw_disp_of_unchanged (h : (s.drawing x y n).changed = false) :
    (s.afterDraw (s.drawing x y n)).disp = s.disp := by
  refine State.disp_ext fun col row hcol hrow => ?_
  have hnone : ¬ s.SpriteAt x y n col row := by
    rintro ⟨r, hr, c, -, -, -, hbit⟩
    have hbyte : s.peek (s.dataAddr r) ≠ 0 := (ne_zero_iff_bit _).2 ⟨_, hbit⟩
    rw [(s.drawing_changed_iff x y n).2 ⟨r, hr, hbyte⟩] at h
    cases h
  rw [s.getPixel_afterDraw_iff x y n hcol hrow, iff_true_right hnone]

theorem State.replicate_eq_disp_of_no_pixel (h : anyPixelSet s.disp = false) : Vector.replicate 32 0 = s.disp := by
  refine State.disp_ext (t := { s with disp := Vector.replicate 32 0 }) fun col row _ _ => ?_
  refine iff_of_false (by rw [State.getPixel_of_blank rfl]; decide) fun hpixel => ?_
  rw [s.anyPixelSet_disp_iff.2 ⟨col, row, hpixel⟩] at h
  cases h

/-- An instruction adds `changed` to `dirty`, and where it adds nothing the display is as before (10_state.md R32). -/
theorem exec_dirty {i : Instr} (h : exec i s = .next t) :
    ∃ changed, t.dirty = (s.dirty || changed) ∧ (changed = false → t.disp = s.disp) := by
  by_cases hi : i.family ∈ [.cls, .drwVxVyN]
  · cases i
    case cls =>
      cases h
      exact ⟨_, rfl, State.replicate_eq_disp_of_no_pixel⟩
    case drwVxVyN x y n =>
      by_cases hrange : n.toNat = 0 ∨ s.index.toNat + n.toNat ≤ 0x1000
      · rw [exec_drwVxVyN_in_range hrange] at h
        cases h
        exact ⟨_, rfl, State.afterDraw_disp_of_unchanged⟩
      · rw [exec_drwVxVyN_out_of_range (by omega) (by omega)] at h
        cases h
        exact ⟨false, (Bool.or_false _).symm, fun _ => rfl⟩
    all_goals simp [Instr.family] at hi
  · obtain ⟨hdisp, hdirty⟩ := (exec_hasItsWriters h).display hi
    exact ⟨false, by rw [hdirty, Bool.or_false], fun _ => hdisp⟩

/-! ### The statements -/

/-- Settles O31. -/
theorem displayHasItsWriters : Obligations.DisplayHasItsWriters := by
  intro i s t h
  obtain ⟨changed, hdirty, hdisp⟩ := exec_dirty h
  refine ⟨(exec_hasItsWriters h).display, fun hs => ?_, fun hne => ?_⟩
  · rw [hdirty, hs, Bool.true_or]
  · rw [hdirty, Bool.eq_true_of_not_eq_false (mt hdisp hne), Bool.or_true]

/-- Settles O39, on each side of the range test. -/
theorem drwFlipsTheSpritesPixels : Obligations.DrwFlipsTheSpritesPixels := by
  intro s x y n
  have hflag := s.afterDraw_flag (s.drawing x y n)
  have hcollision := s.drawing_collision_iff x y n
  refine ⟨fun hrange => ⟨_, exec_drwVxVyN_in_range hrange, fun col row => s.getPixel_afterDraw_iff x y n, fun hhit => ?_,
    fun hmiss => ?_, ?_, s.afterDraw_frame _⟩, fun hn hend => ⟨_, exec_drwVxVyN_out_of_range (by omega) (by omega), rfl⟩⟩
  · rw [hflag, hcollision.2 hhit]
    rfl
  · rw [hflag, Bool.eq_false_iff.2 (mt hcollision.1 hmiss)]
    rfl
  · rw [← s.drawing_changed_iff x y n, ← Bool.or_eq_true]
    rfl

/-- The sprite lies where it lay, in a state that keeps the coordinates, `I` and memory. -/
theorem State.spriteAt_congr (hx : t.reg x = s.reg x) (hy : t.reg y = s.reg y) (hindex : t.index = s.index)
    (hmem : SameMemory s t) (col row : Nat) : t.SpriteAt x y n col row ↔ s.SpriteAt x y n col row := by
  simp only [State.SpriteAt, State.dataAddr, hx, hy, hindex, hmem _]

/-- Settles O37: the two draws flip the same pixels, and the second collides with a pixel under the sprite that the first
has set, that is one that was clear. -/
theorem drawingTwiceRestoresTheDisplay : Obligations.DrawingTwiceRestoresTheDisplay := by
  intro s x y n hx hy hrange
  obtain ⟨t, ht, hpixelT, -, -, -, -, hregs, hindex, hmem, -⟩ := (drwFlipsTheSpritesPixels s x y n).1 hrange
  obtain ⟨u, hu, hpixelU, hhit, hmiss, -⟩ := (drwFlipsTheSpritesPixels t x y n).1 (hindex ▸ hrange)
  have hsprite := State.spriteAt_congr (n := n) (hregs x (by simpa using hx)) (hregs y (by simpa using hy)) hindex hmem
  have hsecond : (∃ col row, t.getPixel col row = true ∧ t.SpriteAt x y n col row) ↔
      ∃ col row, s.getPixel col row = false ∧ s.SpriteAt x y n col row := by
    refine exists₂_congr fun col row => ?_
    rw [hsprite]
    refine and_congr_left fun hs => ?_
    obtain ⟨hcol, hrow⟩ := State.spriteAt_bounds hs
    rw [hpixelT col row hcol hrow, iff_false_right (not_not_intro hs), Bool.not_eq_true]
  refine ⟨t, u, ht, hu, State.disp_ext fun col row hcol hrow => ?_, ?_⟩
  · rw [hpixelU col row hcol hrow, hpixelT col row hcol hrow, hsprite]
    by_cases hs : s.SpriteAt x y n col row <;> simp [hs]
  · rw [← hsecond]
    refine ⟨fun hset => ?_, hhit⟩
    by_contra hnone
    rw [hmiss hnone] at hset
    exact absurd hset (by decide)

end Sys2Proof.Machine
end
